-- ==== Sys2Proof/Word.lean ====
section
/-! DEFINITION. The word types of the core (spec/00_scope.md R5, R7, R8). -/

namespace Sys2Proof

/-- A register, memory cell, address or instruction: 16 bits, arithmetic modulo 65536 (R5, R8). -/
abbrev Word := BitVec 16

/-- The number of a general register, 0 to 7 (R5, R64). -/
abbrev Reg := BitVec 3

/-- One byte of the storage that holds the memory array. -/
abbrev Byte := BitVec 8

/-- The eight general registers R0 to R7 (R20). -/
abbrev RegFile := Vector Word 8

/-- The storage of the memory array: the bytes that are not zero, addresses rising.
Cell `a` of the array is the bytes `2a` (bits 7:0) and `2a + 1` (bits 15:8).
DESIGN CHOICE, safe: the spec has no byte order (R42) and no operation shows it (log entry 1). -/
abbrev Memory := List Host.Cell

end Sys2Proof
end

