-- ==== Sys2Proof/Syntax.lean ====
section
/-! DEFINITION. The instructions: one constructor per row of spec/opcode_table.json (spec/30_encoding.md R61, R62). -/

namespace Sys2Proof

/-- An instruction with every field of its word (R61, R62). The bits R67 calls unused, and bits 11:0 of RTI and
opcode 13, are kept as fields too: `STRICT_UNUSED_BITS` asks about them, and an instruction then is its word, whole. -/
inductive Instr where
  /-- ADD, bit 5 = 0 (R90): DR 11:9, SR1 8:6, unused 4:3, SR2 2:0. -/
  | addReg (dr sr1 : Reg) (unused : BitVec 2) (sr2 : Reg)
  /-- ADD, bit 5 = 1 (R91): DR 11:9, SR1 8:6, imm5 4:0. -/
  | addImm (dr sr1 : Reg) (imm5 : BitVec 5)
  /-- AND, bit 5 = 0 (R92). -/
  | andReg (dr sr1 : Reg) (unused : BitVec 2) (sr2 : Reg)
  /-- AND, bit 5 = 1 (R93). -/
  | andImm (dr sr1 : Reg) (imm5 : BitVec 5)
  /-- NOT (R94): DR 11:9, SR 8:6, unused 5:0. -/
  | not (dr sr : Reg) (unused : BitVec 6)
  /-- BR (R100): mask n, z, p 11:9, PCoffset9 8:0. -/
  | br (nzp : BitVec 3) (off9 : BitVec 9)
  /-- JMP (R101): unused 11:9, BaseR 8:6, unused 5:0. RET is JMP with BaseR = 7. -/
  | jmp (unusedHi : BitVec 3) (base : Reg) (unusedLo : BitVec 6)
  /-- JSR, bit 11 = 1 (R102): PCoffset11 10:0. -/
  | jsr (off11 : BitVec 11)
  /-- JSRR, bit 11 = 0 (R103): unused 10:9, BaseR 8:6, unused 5:0. -/
  | jsrr (unusedHi : BitVec 2) (base : Reg) (unusedLo : BitVec 6)
  /-- LD (R110): DR 11:9, PCoffset9 8:0. -/
  | ld (dr : Reg) (off9 : BitVec 9)
  /-- LDR (R111): DR 11:9, BaseR 8:6, offset6 5:0. -/
  | ldr (dr base : Reg) (off6 : BitVec 6)
  /-- LDI (R112): DR 11:9, PCoffset9 8:0. -/
  | ldi (dr : Reg) (off9 : BitVec 9)
  /-- LEA (R113): DR 11:9, PCoffset9 8:0. -/
  | lea (dr : Reg) (off9 : BitVec 9)
  /-- ST (R114): SR 11:9, PCoffset9 8:0. -/
  | st (sr : Reg) (off9 : BitVec 9)
  /-- STR (R115): SR 11:9, BaseR 8:6, offset6 5:0. -/
  | str (sr base : Reg) (off6 : BitVec 6)
  /-- STI (R116): SR 11:9, PCoffset9 8:0. -/
  | sti (sr : Reg) (off9 : BitVec 9)
  /-- TRAP (R120): unused 11:8, trapvect8 7:0. -/
  | trap (unused : BitVec 4) (vect : BitVec 8)
  /-- RTI, opcode 8, unsupported (R121): bits 11:0 are not read. -/
  | rti (unread : BitVec 12)
  /-- Reserved opcode 13, unsupported (R122): bits 11:0 are not read. -/
  | reserved13 (unread : BitVec 12)
  deriving DecidableEq, Repr

end Sys2Proof
end

