-- ==== Sys2Proof/Decode.lean ====
section
/-! DEFINITION. The decoder, total on every word (spec/30_encoding.md R60 to R68, spec/40_dispatch.md R83), the
encoder written from the same patterns, and the match and mask of each row of spec/opcode_table.json. -/

namespace Sys2Proof

/-- The 16 opcodes, the two unsupported ones as names of their own (R65, R66). -/
inductive Opcode where
  | br | add | ld | st | jsr | and | ldr | str
  | rti | not | ldi | sti | jmp | reserved | lea | trap
  deriving DecidableEq, Repr

/-- The opcode field `ir[15:12]`, bit 15 first (R65). Every value has its arm: there is no default. -/
def opcodeOf (w : Word) : Opcode :=
  match w.getLsbD 15, w.getLsbD 14, w.getLsbD 13, w.getLsbD 12 with
  | false, false, false, false => .br
  | false, false, false, true  => .add
  | false, false, true,  false => .ld
  | false, false, true,  true  => .st
  | false, true,  false, false => .jsr
  | false, true,  false, true  => .and
  | false, true,  true,  false => .ldr
  | false, true,  true,  true  => .str
  | true,  false, false, false => .rti
  | true,  false, false, true  => .not
  | true,  false, true,  false => .ldi
  | true,  false, true,  true  => .sti
  | true,  true,  false, false => .jmp
  | true,  true,  false, true  => .reserved
  | true,  true,  true,  false => .lea
  | true,  true,  true,  true  => .trap

/-- The register field at 11:9: DR, or the source of a store (R61). -/
def fieldDR (w : Word) : Reg := w.extractLsb' 9 3

/-- The register field at 8:6: SR1, SR or BaseR (R61). -/
def fieldSR1 (w : Word) : Reg := w.extractLsb' 6 3

/-- The PCoffset9 field at 8:0 (R61). -/
def fieldOff9 (w : Word) : BitVec 9 := w.extractLsb' 0 9

/-- The field at 5:0: offset6, or unused bits (R61, R67). -/
def fieldLow6 (w : Word) : BitVec 6 := w.extractLsb' 0 6

/-- The instruction a word is (R62, R65): every word is exactly one (R68). -/
def decode (w : Word) : Instr :=
  match opcodeOf w with
  | .br => .br (w.extractLsb' 9 3) (fieldOff9 w)
  | .add =>
    if w.getLsbD 5 then .addImm (fieldDR w) (fieldSR1 w) (w.extractLsb' 0 5)
    else .addReg (fieldDR w) (fieldSR1 w) (w.extractLsb' 3 2) (w.extractLsb' 0 3)
  | .ld => .ld (fieldDR w) (fieldOff9 w)
  | .st => .st (fieldDR w) (fieldOff9 w)
  | .jsr =>
    if w.getLsbD 11 then .jsr (w.extractLsb' 0 11)
    else .jsrr (w.extractLsb' 9 2) (fieldSR1 w) (fieldLow6 w)
  | .and =>
    if w.getLsbD 5 then .andImm (fieldDR w) (fieldSR1 w) (w.extractLsb' 0 5)
    else .andReg (fieldDR w) (fieldSR1 w) (w.extractLsb' 3 2) (w.extractLsb' 0 3)
  | .ldr => .ldr (fieldDR w) (fieldSR1 w) (fieldLow6 w)
  | .str => .str (fieldDR w) (fieldSR1 w) (fieldLow6 w)
  | .rti => .rti (w.extractLsb' 0 12)
  | .not => .not (fieldDR w) (fieldSR1 w) (fieldLow6 w)
  | .ldi => .ldi (fieldDR w) (fieldOff9 w)
  | .sti => .sti (fieldDR w) (fieldOff9 w)
  | .jmp => .jmp (w.extractLsb' 9 3) (fieldSR1 w) (fieldLow6 w)
  | .reserved => .reserved13 (w.extractLsb' 0 12)
  | .lea => .lea (fieldDR w) (fieldOff9 w)
  | .trap => .trap (w.extractLsb' 8 4) (w.extractLsb' 0 8)

/-- Why a list of words holds no instruction: it is empty. No word is refused (R68). -/
inductive DecodeError where
  | noWord
  deriving DecidableEq, Repr

/-- The first instruction of a list of words and the words after it (R60). -/
def decodeWords : List Word → Except DecodeError (Instr × List Word)
  | [] => .error .noWord
  | w :: rest => .ok (decode w, rest)

/-- The word of an instruction, field by field from the patterns of R62. -/
def encode : Instr → Word
  | .addReg dr sr1 u sr2 => 0b0001#4 ++ dr ++ sr1 ++ 0b0#1 ++ u ++ sr2
  | .addImm dr sr1 imm5 => 0b0001#4 ++ dr ++ sr1 ++ 0b1#1 ++ imm5
  | .andReg dr sr1 u sr2 => 0b0101#4 ++ dr ++ sr1 ++ 0b0#1 ++ u ++ sr2
  | .andImm dr sr1 imm5 => 0b0101#4 ++ dr ++ sr1 ++ 0b1#1 ++ imm5
  | .not dr sr u => 0b1001#4 ++ dr ++ sr ++ u
  | .br nzp off9 => 0b0000#4 ++ nzp ++ off9
  | .jmp h base l => 0b1100#4 ++ h ++ base ++ l
  | .jsr off11 => 0b0100#4 ++ 0b1#1 ++ off11
  | .jsrr h base l => 0b0100#4 ++ 0b0#1 ++ h ++ base ++ l
  | .ld dr off9 => 0b0010#4 ++ dr ++ off9
  | .ldr dr base off6 => 0b0110#4 ++ dr ++ base ++ off6
  | .ldi dr off9 => 0b1010#4 ++ dr ++ off9
  | .lea dr off9 => 0b1110#4 ++ dr ++ off9
  | .st sr off9 => 0b0011#4 ++ sr ++ off9
  | .str sr base off6 => 0b0111#4 ++ sr ++ base ++ off6
  | .sti sr off9 => 0b1011#4 ++ sr ++ off9
  | .trap u vect => 0b1111#4 ++ u ++ vect
  | .rti x => 0b1000#4 ++ x
  | .reserved13 x => 0b1101#4 ++ x

/-- The `mask` and `match` of the instruction's row of spec/opcode_table.json. -/
def Instr.tableRow : Instr → Word × Word
  | .addReg _ _ _ _ => (0xF020, 0x1000)
  | .addImm _ _ _ => (0xF020, 0x1020)
  | .andReg _ _ _ _ => (0xF020, 0x5000)
  | .andImm _ _ _ => (0xF020, 0x5020)
  | .not _ _ _ => (0xF000, 0x9000)
  | .br _ _ => (0xF000, 0x0000)
  | .jmp _ _ _ => (0xF000, 0xC000)
  | .jsr _ => (0xF800, 0x4800)
  | .jsrr _ _ _ => (0xF800, 0x4000)
  | .ld _ _ => (0xF000, 0x2000)
  | .ldr _ _ _ => (0xF000, 0x6000)
  | .ldi _ _ => (0xF000, 0xA000)
  | .lea _ _ => (0xF000, 0xE000)
  | .st _ _ => (0xF000, 0x3000)
  | .str _ _ _ => (0xF000, 0x7000)
  | .sti _ _ => (0xF000, 0xB000)
  | .trap _ _ => (0xF000, 0xF000)
  | .rti _ => (0xF000, 0x8000)
  | .reserved13 _ => (0xF000, 0xD000)

/-- The word whose low `nbits` bits are those of `w` and whose other bits are 0. -/
def tableWord (nbits w : Nat) : Word := BitVec.ofNat 16 (w % 2 ^ nbits)

/-- The instruction the decoder reads from the word `w` of a row of `nbits` bits. -/
def decodeTableWord (nbits w : Nat) : Option Instr :=
  match decodeWords [tableWord nbits w] with
  | .ok (i, _) => some i
  | .error _ => none

end Sys2Proof
end

