-- ==== Sys2Proof/Config.lean ====
section
/-! DEFINITION. What an implementation fixes (the open parameters of spec/00_scope.md R6), what crosses the
device and trap ports (R10, R46, R123), and the two free values: what each port answers. -/

namespace Sys2Proof

/-- The open parameters of R6. The model takes each as an argument: they stand in State, where nothing but the
choice of the initial state sets them (log entry 4). `M0` is the image a reset loads. -/
structure Params where
  /-- `ENTRY_PC`, where execution starts (R6, R151). -/
  entryPc : Word
  /-- `DEVICE_ADDRS`, the addresses whose reads go to the device port (R6, R45). -/
  deviceAddrs : List Word
  /-- `STRICT_UNUSED_BITS`, whether a non-canonical unused bit faults (R6, R67). -/
  strictUnusedBits : Bool
  deriving DecidableEq, Repr

/-- The defaults of R6. -/
def Params.default : Params where
  entryPc := 0x3000
  deviceAddrs := [0xFE00, 0xFE02]
  strictUnusedBits := false

/-- The values of a condition flag (R25). A trap-port answer carries one of these three (R123). -/
inductive Flag where
  | n
  | z
  | p
  deriving DecidableEq, Repr

/-- The answer that ends a device read (R46): `Value(v, w)` or `Error`. -/
inductive DeviceAnswer where
  /-- `v` is what the read returns, `w` the writes the device makes to its own cells. -/
  | value (v : Word) (w : List (Word × Word))
  | error
  deriving DecidableEq, Repr

/-- The answer that ends a trap request (R123): `Continue(r', c')`, `Halt(r', c')` or `Error`. -/
inductive TrapAnswer where
  | cont (r : RegFile) (c : Flag)
  | halt (r : RegFile) (c : Flag)
  | error
  deriving DecidableEq, Repr

/-- One response of a port: an answer that ends the request, or `Retry`, which repeats it (R45, R120). -/
inductive PortResponse (α : Type) where
  | answer (x : α)
  | retry
  deriving DecidableEq, Repr

/-- What a trap request carries (R123): the vector, the registers, the incremented `pc`, `cond`, and a read-only
view of the stored memory cells. -/
structure TrapRequest where
  vect : BitVec 8
  regs : RegFile
  pc : Word
  cond : BitVec 3
  mem : Memory
  deriving DecidableEq, Repr

/-- A request the core sends on the device port or the trap port (R10). -/
inductive PortRequest where
  | devread (a : Word)
  | trap (r : TrapRequest)
  deriving DecidableEq, Repr

/-- What the host does on the control inputs before a step (R10): nothing, assert `stop` (R138), or apply `reset`
with the launch memory given as the words its images place (R150, R152). -/
inductive Control where
  | idle
  | stop
  | reset (image : List (Word × Word))
  deriving DecidableEq, Repr

/-- Free value: the answer that ends a device read, given every request sent so far, newest first (the read itself
stands at the head), and the memory the device's own cells lie in; `none` is a port that never answers (R46, U6, U7).
It is asked only when `State.devIn` lists no further response (log entry 5). -/
opaque Config.devicePort (sent : List PortRequest) (mem : Memory) : Option DeviceAnswer

/-- Free value: the answer that ends a trap request, given every request sent so far, newest first (the trap request
itself stands at the head); `none` is a port that never answers (R123, U9, U10).
It is asked only when `State.trapIn` lists no further response (log entry 5). -/
opaque Config.trapPort (sent : List PortRequest) : Option TrapAnswer

end Sys2Proof
end

