-- ==== Sys2Proof/Machine/State.lean ====
section
/-! DEFINITION. The machine's state (spec/10_state.md), how a step can stop, and the state after reset (R33). -/

namespace Sys2Proof.Machine

/-- The causes of R131. Their numbers are `FaultCause.code` of Machine/Ops.lean. -/
inductive FaultCause where
  | badOpcode
  | trapError
  | deviceError
  deriving DecidableEq, Repr

/-- The fault record (R28, R132): `ir` is the instruction word, 0 for a fault on the fetch; `addr` is the address
the failing instruction was fetched from. -/
structure FaultRecord where
  cause : FaultCause
  ir : Word
  addr : Word
  deriving DecidableEq, Repr

/-- The run state (R28). Only `running` takes steps. `faulted` holds the fault record. -/
inductive RunState where
  | running
  | halted
  | stopped
  | faulted (rec : FaultRecord)
  deriving DecidableEq, Repr

/-- The state of the core, of its memory and of its ports. -/
structure State where
  /-- R0 to R7 (R20). -/
  regs : RegFile
  /-- The program counter: between steps the address of the next instruction, within a step, after the fetch, the
  instruction's address plus 1 (R23, R24). -/
  pc : Word
  /-- The condition-flag latch: bit 2 N, bit 1 Z, bit 0 P (R25). -/
  cond : BitVec 3
  /-- The run state and the fault record (R28). -/
  run : RunState
  /-- The instruction word fetched by the current step (R30). Between steps it carries no meaning. -/
  ir : Word
  /-- The memory array `M` (R31, R40). -/
  mem : Memory
  /-- The open parameters of R6, which nothing changes (log entry 4). -/
  params : Params
  /-- The model's own field: what the control inputs are at the next samplings, the first one next; past the list
  they are idle (R10, R138, R150, log entry 3). -/
  ctl : List Control
  /-- The model's own field: the device port's next responses, the first one next (R46, log entry 5). -/
  devIn : List (PortResponse DeviceAnswer)
  /-- The model's own field: the trap port's next responses, the first one next (R123, log entry 5). -/
  trapIn : List (PortResponse TrapAnswer)
  /-- The model's own field: the requests sent on the two ports, newest first (R10, R51, R123, log entry 6). -/
  sent : List PortRequest
  deriving DecidableEq, Repr

/-- Where the step itself never ends. A fault of the spec (R131) is not one of these: it is the next state, with
`run` FAULTED. -/
inductive Fault where
  /-- Raised by a read of a device address (fetch, LD, LDR, LDI, STI) that the device port never answers: the step
  never ends (R46, R157; U7 calls it `stuck`). Safe: the model stops where the machine waits for ever. -/
  | devicePortSilent (a : Word)
  /-- Raised by TRAP when the trap port never answers: the step never ends (R120, R157; U10 calls it `stuck`).
  Safe: the model stops where the machine waits for ever. -/
  | trapPortSilent (vect : BitVec 8)
  deriving DecidableEq, Repr

/-- Why an instruction has no meaning here. -/
inductive Refusal where
  /-- Raised by an arm of `exec` whose instruction is not modelled yet. Safe. No arm is refused. -/
  | notModelled (mnemonic : String)
  deriving DecidableEq, Repr

/-- The outcome of a step or of an instruction's meaning. -/
abbrev StepOutcome := Host.Outcome State Fault Refusal

/-- How a read through the memory interface ends (R45): a value, a device error, or no answer. -/
inductive ReadResult where
  | value (v : Word) (s : State)
  | error (s : State)
  | silent (a : Word)
  deriving DecidableEq, Repr

/-- How a trap request ends (R120, R123): an answer, or none. -/
inductive TrapResult where
  | answer (x : TrapAnswer) (s : State)
  | silent
  deriving DecidableEq, Repr

/-- The three condition-flag values as bits: N, Z, P from bit 2 down (R25). -/
def flagBits : Flag → BitVec 3
  | .n => 0b100
  | .z => 0b010
  | .p => 0b001

/-- The state of R33, with the parameters `p` and the launch memory `m0`. -/
def State.boot (p : Params) (m0 : Memory) : State where
  regs := Vector.replicate 8 0
  pc := p.entryPc
  cond := flagBits .z
  run := .running
  ir := 0  -- DESIGN CHOICE (log entry 2): R33 gives `ir` no value
  mem := m0
  params := p
  ctl := []
  devIn := []
  trapIn := []
  sent := []

/-- The machine right after reset (R33, R150), at the default parameters (R6), with no image loaded. -/
def State.reset : State := State.boot Params.default []

end Sys2Proof.Machine
end

