-- ==== Sys2Proof/Machine/Ops.lean ====
section
/-! DEFINITION. The named operations on registers and memory, the memory interface with its address decoder, the two
ports, raising a fault, and the host's control inputs. -/

namespace Sys2Proof.Machine

/-! ## Memory: the stored bytes (spec/20_memory.md R40; DESIGN CHOICE of layout, log entry 1) -/

/-- The byte at `a`; 0 where the list has no entry (R33: `0x0000` in every cell no image covers). -/
def Memory.readByte : Memory → Nat → Byte
  | [], _ => 0
  | (k, v) :: rest, a =>
    if a < k then 0
    else if a = k then v
    else Memory.readByte rest a

/-- Store a byte and keep the list's form: rising addresses, no entry that is 0. -/
def Memory.writeByte : Memory → Nat → Byte → Memory
  | [], a, b => if b = 0 then [] else [(a, b)]
  | (k, v) :: rest, a, b =>
    if a < k then (if b = 0 then (k, v) :: rest else (a, b) :: (k, v) :: rest)
    else if a = k then (if b = 0 then rest else (a, b) :: rest)
    else (k, v) :: Memory.writeByte rest a b

/-- The entries from address `lo` on: rising, below the end of the array, none of them 0. -/
def Memory.wfFrom : Nat → Memory → Bool
  | _, [] => true
  | lo, (k, v) :: rest =>
    decide (lo ≤ k) && decide (k < 131072) && decide (v ≠ 0) && Memory.wfFrom (k + 1) rest

/-- The canonical form of the storage, so that equal memories are equal lists. -/
def Memory.wf (m : Memory) : Bool := Memory.wfFrom 0 m

/-- Cell `a` of the array: the stored word, with no look at the address decoder (R40, R48). -/
def Memory.read (m : Memory) (a : Word) : Word :=
  Memory.readByte m (2 * a.toNat + 1) ++ Memory.readByte m (2 * a.toNat)

/-- `MemWrite(a, 1, v)` on the array (R47). -/
def Memory.write (m : Memory) (a v : Word) : Memory :=
  Memory.writeByte (Memory.writeByte m (2 * a.toNat) (v.extractLsb' 0 8))
    (2 * a.toNat + 1) (v.extractLsb' 8 8)

/-- Store words one after another. -/
def Memory.writeAll (m : Memory) (ws : List (Word × Word)) : Memory :=
  ws.foldl (fun m p => Memory.write m p.1 p.2) m

/-- The launch memory `M0`: the image's words over cells that are all 0 (R152). -/
def Memory.ofImage (image : List (Word × Word)) : Memory := Memory.writeAll [] image

/-! ## Registers (spec/10_state.md R20, R24) -/

/-- `x[r]` (R9). -/
def State.reg (s : State) (r : Reg) : Word := s.regs[r.toNat]'r.isLt

/-- `x[r] <- v` (R9). -/
def State.setReg (s : State) (r : Reg) (v : Word) : State :=
  { s with regs := s.regs.set r.toNat v r.isLt }

/-- `pc <- target` (R9). -/
def State.setPc (s : State) (target : Word) : State := { s with pc := target }

/-- `cond <- f` (R9). -/
def State.setCond (s : State) (f : BitVec 3) : State := { s with cond := f }

/-- `MemWrite(a, 1, v)`: the word is stored, in a device cell too, nothing is sent, and no write faults (R47). -/
def State.memWrite (s : State) (a v : Word) : State := { s with mem := Memory.write s.mem a v }

/-! ## Faults (spec/60_exceptions.md R130 to R134) -/

/-- The numbers of R131. -/
def FaultCause.code : FaultCause → Nat
  | .badOpcode => 1
  | .trapError => 2
  | .deviceError => 3

/-- Take a fault: `run` becomes FAULTED with the record and nothing else is written (R88, R132). There is no vector,
no saved state and no return (R130, R135, R136). -/
def State.enterFaulted (s : State) (rec : FaultRecord) : State := { s with run := .faulted rec }

/-- The address the running instruction was fetched from: `pc` holds that address plus 1 (R24). -/
def State.fetchAddr (s : State) : Word := s.pc - 1

/-- `raise Fault(cause, {ir, a0})` after the fetch (R83, R88, R132). -/
def State.raise (s : State) (cause : FaultCause) : State :=
  s.enterFaulted ⟨cause, s.ir, s.fetchAddr⟩

/-- A DEVICE_ERROR on the fetch: the record's `ir` is 0 and `pc` keeps its value (R81, R132). -/
def State.raiseOnFetch (s : State) : State :=
  s.enterFaulted ⟨.deviceError, 0, s.pc⟩

/-! ## The ports (R45, R46, R120, R123) -/

/-- One request on a port, sent again at each `Retry`, until an answer ends it. The responses come from the list;
past its end the free value `free`, given all requests sent, ends the request, or no answer ever comes.
The result is the answer, the responses left, and the requests sent. -/
def portLoop {α : Type} (req : PortRequest) (free : List PortRequest → Option α) :
    List (PortResponse α) → List PortRequest → Option α × List (PortResponse α) × List PortRequest
  | [], sent => (free (req :: sent), [], req :: sent)
  | .answer x :: rest, sent => (some x, rest, req :: sent)
  | .retry :: rest, sent => portLoop req free rest (req :: sent)

/-- The writes of a device answer, to the device's own cells only (R46: "to addresses in `DEVICE_ADDRS`").
DESIGN CHOICE, safe: a pair outside `DEVICE_ADDRS`, which R46 rules out, writes nothing (log entry 7). -/
def deviceWrites (addrs : List Word) (w : List (Word × Word)) : List (Word × Word) :=
  w.filter fun p => addrs.contains p.1

/-- `devread(a)` on the device port (R45, R46). -/
def devRead (a : Word) (s : State) : ReadResult :=
  match portLoop (.devread a) (fun sent => Config.devicePort sent s.mem) s.devIn s.sent with
  | (some (.value v w), rest, sent) =>
    .value v { s with
      mem := Memory.writeAll s.mem (deviceWrites s.params.deviceAddrs w), devIn := rest, sent := sent }
  | (some .error, rest, sent) => .error { s with devIn := rest, sent := sent }
  | (none, _, _) => .silent a

/-- `MemRead(a, 1)`: the address decoder sends a read of a device address to the device port and every other read to
the memory array (R45). -/
def memRead (a : Word) (s : State) : ReadResult :=
  if s.params.deviceAddrs.contains a then devRead a s
  else .value (Memory.read s.mem a) s

/-- Go on with the value of a read; raise DEVICE_ERROR if the port answers `Error` (R45). -/
def withRead (a : Word) (s : State) (k : Word → State → StepOutcome) : StepOutcome :=
  match memRead a s with
  | .value v s' => k v s'
  | .error s' => .next (s'.raise .deviceError)
  | .silent b => .fault (.devicePortSilent b)

/-- What a trap request carries (R123). -/
def State.trapRequest (s : State) (vect : BitVec 8) : TrapRequest :=
  ⟨vect, s.regs, s.pc, s.cond, s.mem⟩

/-- `TrapCall(vect)`, repeated at each `Retry` (R120, R123). -/
def trapCall (vect : BitVec 8) (s : State) : TrapResult :=
  match portLoop (.trap (s.trapRequest vect)) Config.trapPort s.trapIn s.sent with
  | (some x, rest, sent) => .answer x { s with trapIn := rest, sent := sent }
  | (none, _, _) => .silent

/-- What a trap answer does: `Continue` and `Halt` give new registers and flags, `Halt` ends the run, `Error` raises
TRAP_ERROR (R120, R139). -/
def applyTrapAnswer (x : TrapAnswer) (s : State) : State :=
  match x with
  | .cont r c => { s with regs := r, cond := flagBits c }
  | .halt r c => { s with regs := r, cond := flagBits c, run := .halted }
  | .error => s.raise .trapError

/-! ## Fetch (spec/40_dispatch.md R81, R82) -/

/-- The fetched word goes to `ir` and `pc` moves on by 1, modulo 65536, before anything is decoded (R81, R82). -/
def State.fetched (s : State) (w : Word) : State := { s with ir := w, pc := s.pc + 1 }

/-- Fetch the word at `pc` through the memory interface and go on with it (R81, R82). -/
def withFetch (s : State) (k : Word → State → StepOutcome) : StepOutcome :=
  match memRead s.pc s with
  | .value w s' => k w (s'.fetched w)
  | .error s' => .next s'.raiseOnFetch
  | .silent b => .fault (.devicePortSilent b)

/-! ## The control inputs (R10, R138, R140, R150) -/

/-- The control inputs as the core samples them now. -/
def State.control (s : State) : Control := s.ctl.headD .idle

/-- That sampling is past. -/
def State.popControl (s : State) : State := { s with ctl := s.ctl.tail }

/-- `stop` asserted before a fetch: RUNNING becomes STOPPED; a terminal state stays (R138, R140). -/
def State.takeStop (s : State) : State :=
  match s.run with
  | .running => { s with run := .stopped }
  | .halted => s
  | .stopped => s
  | .faulted _ => s

/-- `reset`: every piece of the core's state takes its value of R33, and the host reloads the memory (R150, R152).
The parameters and the host's side of the ports stay. -/
def State.takeReset (s : State) (image : List (Word × Word)) : State :=
  { State.boot s.params (Memory.ofImage image) with
    ctl := s.ctl, devIn := s.devIn, trapIn := s.trapIn, sent := s.sent }

/-! ## Placing an instruction for the next step -/

/-- The word `w` stands in the cell `pc` names, and the next step fetches it: the core runs, its next control sample
is idle, and if `pc` is a device address the device port's next answer is `w` (log entry 8). -/
def State.placeWord (s : State) (w : Word) : State :=
  { s with
    mem := Memory.write s.mem s.pc w
    run := .running
    ctl := if s.control = .idle then s.ctl else .idle :: s.ctl
    devIn := if s.params.deviceAddrs.contains s.pc then .answer (.value w []) :: s.devIn else s.devIn }

end Sys2Proof.Machine
end

