-- ==== Sys2Proof/Machine/Flags.lean ====
section
/-! DEFINITION. The condition-flag update unit (spec/40_dispatch.md R86, R87). -/

namespace Sys2Proof.Machine

/-- The flag of a value: Z if it is 0, N if its bit 15 is set, else P (R86). -/
def flagOf (v : Word) : Flag :=
  if v = 0 then .z else if v.getLsbD 15 then .n else .p

/-- `setcc(v)` (R86). -/
def State.setcc (s : State) (v : Word) : State := s.setCond (flagBits (flagOf v))

/-- `x[dr] <- v`, then the flag unit reads the destination register (R87). -/
def State.writeResult (s : State) (dr : Reg) (v : Word) : State :=
  (s.setReg dr v).setcc ((s.setReg dr v).reg dr)

end Sys2Proof.Machine
end

