-- ==== Sys2Proof/Machine/Operands.lean ====
section
/-! DEFINITION. The sign-extension unit (spec/40_dispatch.md R85) and the addressing modes (spec/43_load_store.md
R109). The register and immediate operands are `State.reg` and `sext`. -/

namespace Sys2Proof.Machine

/-- `sext_N` of an N-bit field (R63, R85): the 16-bit value with the field's low bits and its sign bit above them. -/
def sext {n : Nat} (field : BitVec n) : Word := field.signExtend 16

/-- PC-relative: the incremented `pc` plus the sign-extended offset, modulo 65536 (R41, R82, R109). -/
def pcRelative {n : Nat} (off : BitVec n) (s : State) : Word := s.pc + sext off

/-- Base + offset: `x[BaseR]` plus the sign-extended offset6, modulo 65536 (R41, R109). -/
def baseOffset (base : Reg) (off6 : BitVec 6) (s : State) : Word := s.reg base + sext off6

/-- Indirect: go on with the pointer read at the PC-relative address (R109, R112, R116). -/
def withPointer (off9 : BitVec 9) (s : State) (k : Word → State → StepOutcome) : StepOutcome :=
  withRead (pcRelative off9 s) s k

end Sys2Proof.Machine
end

