-- ==== Sys2Proof/Machine/Alu.lean ====
section
/-! DEFINITION. ADD, AND and NOT (spec/41_operate.md). -/

namespace Sys2Proof.Machine

/-- ADD, register (R90): `x[DR] <- x[SR1] + x[SR2]`, then the flags. -/
def execAddReg (dr sr1 sr2 : Reg) (s : State) : StepOutcome :=
  .next (s.writeResult dr (s.reg sr1 + s.reg sr2))

/-- ADD, immediate (R91): `x[DR] <- x[SR1] + sext_5(imm5)`, then the flags. -/
def execAddImm (dr sr1 : Reg) (imm5 : BitVec 5) (s : State) : StepOutcome :=
  .next (s.writeResult dr (s.reg sr1 + sext imm5))

/-- AND, register (R92): `x[DR] <- x[SR1] & x[SR2]`, then the flags. -/
def execAndReg (dr sr1 sr2 : Reg) (s : State) : StepOutcome :=
  .next (s.writeResult dr (s.reg sr1 &&& s.reg sr2))

/-- AND, immediate (R93): `x[DR] <- x[SR1] & sext_5(imm5)`, then the flags. -/
def execAndImm (dr sr1 : Reg) (imm5 : BitVec 5) (s : State) : StepOutcome :=
  .next (s.writeResult dr (s.reg sr1 &&& sext imm5))

/-- NOT (R94): `x[DR] <- ~x[SR]`, then the flags. -/
def execNot (dr sr : Reg) (s : State) : StepOutcome :=
  .next (s.writeResult dr (~~~ s.reg sr))

end Sys2Proof.Machine
end

