-- ==== Sys2Proof/Machine/Control.lean ====
section
/-! DEFINITION. BR, JMP, JSR and JSRR (spec/42_control.md). None of them writes the flags or reads memory. -/

namespace Sys2Proof.Machine

/-- BR (R100): taken if the mask and `cond` have a bit in common. -/
def execBr (nzp : BitVec 3) (off9 : BitVec 9) (s : State) : StepOutcome :=
  .next (if nzp &&& s.cond ≠ 0 then s.setPc (pcRelative off9 s) else s)

/-- JMP, and RET when BaseR is 7 (R101): `pc <- x[BaseR]`. -/
def execJmp (base : Reg) (s : State) : StepOutcome :=
  .next (s.setPc (s.reg base))

/-- `x[7] <- pc`, the return address (R102, R103). -/
def State.link (s : State) : State := s.setReg 7 s.pc

/-- JSR (R102): `x[7] <- pc`, then `pc <- pc + sext_11`. -/
def execJsr (off11 : BitVec 11) (s : State) : StepOutcome :=
  .next (s.link.setPc (pcRelative off11 s.link))

/-- JSRR (R103): `x[7] <- pc`, then `pc <- x[BaseR]`, read after the write of R7. -/
def execJsrr (base : Reg) (s : State) : StepOutcome :=
  .next (s.link.setPc (s.link.reg base))

end Sys2Proof.Machine
end

