-- ==== Sys2Proof/Machine/LoadStore.lean ====
section
/-! DEFINITION. LD, LDR, LDI, LEA, ST, STR and STI (spec/43_load_store.md). -/

namespace Sys2Proof.Machine

/-- Load the word at `ea` through the memory interface into `dr` and set the flags (R110 to R112). -/
def loadFrom (dr : Reg) (ea : Word) (s : State) : StepOutcome :=
  withRead ea s fun v s' => .next (s'.writeResult dr v)

/-- LD (R110): `ea = pc + sext_9`. -/
def execLd (dr : Reg) (off9 : BitVec 9) (s : State) : StepOutcome :=
  loadFrom dr (pcRelative off9 s) s

/-- LDR (R111): `ea = x[BaseR] + sext_6`. -/
def execLdr (dr base : Reg) (off6 : BitVec 6) (s : State) : StepOutcome :=
  loadFrom dr (baseOffset base off6 s) s

/-- LDI (R112): the pointer is read at `pc + sext_9`, then the value at the pointer. -/
def execLdi (dr : Reg) (off9 : BitVec 9) (s : State) : StepOutcome :=
  withPointer off9 s fun ea s' => loadFrom dr ea s'

/-- LEA (R113): `x[DR] <- pc + sext_9`, then the flags; no memory access. -/
def execLea (dr : Reg) (off9 : BitVec 9) (s : State) : StepOutcome :=
  .next (s.writeResult dr (pcRelative off9 s))

/-- ST (R114): `MemWrite(pc + sext_9, 1, x[SR])`. -/
def execSt (sr : Reg) (off9 : BitVec 9) (s : State) : StepOutcome :=
  .next (s.memWrite (pcRelative off9 s) (s.reg sr))

/-- STR (R115): `MemWrite(x[BaseR] + sext_6, 1, x[SR])`. -/
def execStr (sr base : Reg) (off6 : BitVec 6) (s : State) : StepOutcome :=
  .next (s.memWrite (baseOffset base off6 s) (s.reg sr))

/-- STI (R116): the pointer is read at `pc + sext_9`, then `MemWrite(pointer, 1, x[SR])`. -/
def execSti (sr : Reg) (off9 : BitVec 9) (s : State) : StepOutcome :=
  withPointer off9 s fun ea s' => .next (s'.memWrite ea (s'.reg sr))

end Sys2Proof.Machine
end

