-- ==== Sys2Proof/Machine/TrapUnit.lean ====
section
/-! DEFINITION. TRAP and the two unsupported opcodes (spec/44_trap_and_unsupported.md). -/

namespace Sys2Proof.Machine

/-- TRAP (R120): one request on the trap port; the core itself writes neither R7 nor `pc` nor the flags. -/
def execTrap (vect : BitVec 8) (s : State) : StepOutcome :=
  match trapCall vect s with
  | .answer x s' => .next (applyTrapAnswer x s')
  | .silent => .fault (.trapPortSilent vect)

/-- RTI (R121): `raise Fault(BAD_OPCODE, {ir, a0})`. -/
def execRti (s : State) : StepOutcome := .next (s.raise .badOpcode)

/-- Opcode 13 (R122): `raise Fault(BAD_OPCODE, {ir, a0})`. -/
def execReserved13 (s : State) : StepOutcome := .next (s.raise .badOpcode)

end Sys2Proof.Machine
end

