-- ==== Sys2Proof/WellFormed.lean ====
section
/-! DEFINITION. When the core accepts an instruction's unused bits (spec/30_encoding.md R67). Register numbers,
offsets and vectors have the widths of their fields, so no other check exists. -/

namespace Sys2Proof

/-- The unused bits hold their canonical value: all zeros, but NOT bits 5:0 all ones (R67). RTI and opcode 13 are
not in R67's list. -/
def Instr.canonical : Instr → Bool
  | .addReg _ _ u _ => u == 0
  | .addImm _ _ _ => true
  | .andReg _ _ u _ => u == 0
  | .andImm _ _ _ => true
  | .not _ _ u => u == 0b111111
  | .br _ _ => true
  | .jmp h _ l => h == 0 && l == 0
  | .jsr _ => true
  | .jsrr h _ l => h == 0 && l == 0
  | .ld _ _ => true
  | .ldr _ _ _ => true
  | .ldi _ _ => true
  | .lea _ _ => true
  | .st _ _ => true
  | .str _ _ _ => true
  | .sti _ _ => true
  | .trap u _ => u == 0
  | .rti _ => true
  | .reserved13 _ => true

/-- The dispatcher accepts the instruction: always when `STRICT_UNUSED_BITS = false`, and only in its canonical
form when it is `true` (R67, R83). -/
def Instr.wf (strict : Bool) (i : Instr) : Bool :=
  !strict || i.canonical

end Sys2Proof
end

