-- ==== Sys2Proof/Machine/Cycle.lean ====
section
/-! DEFINITION. What one step does around the handlers: sample the control inputs, fetch, check the unused bits, and
dispatch (spec/40_dispatch.md R80 to R83, spec/60_exceptions.md R138, R140). -/

namespace Sys2Proof.Machine

/-- The dispatcher (R83): a word whose unused bits are not canonical faults under `STRICT_UNUSED_BITS`, any other word
goes to its handler. -/
def dispatch (i : Instr) (s : State) : StepOutcome :=
  if i.wf s.params.strictUnusedBits then exec i s else .next (s.raise .badOpcode)

/-- Fetch, increment, decode and dispatch one instruction (R80 to R83). -/
def runInstruction (s : State) : StepOutcome :=
  withFetch s fun w s' => dispatch (decode w) s'

/-- What the core does when no control input is asserted: RUNNING takes a step, a terminal state takes none
(R28, R80, R140). -/
def idleCycle (s : State) : StepOutcome :=
  match s.run with
  | .running => runInstruction s
  | .halted => .next s
  | .stopped => .next s
  | .faulted _ => .next s

/-- Sample the control inputs, then act on them (R138, R140, R150). -/
def cycle (s : State) : StepOutcome :=
  match s.control with
  | .idle => idleCycle s.popControl
  | .stop => .next s.popControl.takeStop
  | .reset image => .next (s.popControl.takeReset image)

end Sys2Proof.Machine
end

