-- ==== Sys2Proof/Safety.lean ====
section
/-! DEFINITION. The terms claims are stated in: what stays the same over a step, what each kind of instruction leaves
behind, and the invariants of a run. -/

namespace Sys2Proof.Machine

/-! ## What stays the same -/

/-- Every memory cell reads as before. -/
def SameMemory (s t : State) : Prop := ∀ a : Word, Memory.read t.mem a = Memory.read s.mem a

/-- Every general register reads as before. -/
def SameRegs (s t : State) : Prop := ∀ r : Reg, t.reg r = s.reg r

/-- The run state, `ir`, the parameters and the control samples are as before. -/
def SameControl (s t : State) : Prop :=
  t.run = s.run ∧ t.ir = s.ir ∧ t.params = s.params ∧ t.ctl = s.ctl

/-- Nothing was sent on a port and no response was taken. -/
def SamePorts (s t : State) : Prop :=
  t.devIn = s.devIn ∧ t.trapIn = s.trapIn ∧ t.sent = s.sent

/-- A cell that is not a device cell reads as before. -/
def SameOrdinaryMemory (s t : State) : Prop :=
  ∀ a : Word, s.params.deviceAddrs.contains a = false → Memory.read t.mem a = Memory.read s.mem a

/-- What reads leave behind: only device cells, the device port's responses and the requests sent may differ. -/
def ReadFrame (s t : State) : Prop :=
  SameRegs s t ∧ t.pc = s.pc ∧ t.cond = s.cond ∧ SameControl s t ∧ t.trapIn = s.trapIn ∧ SameOrdinaryMemory s t

/-! ## What an instruction leaves behind -/

/-- The flags of a value read as a signed 16-bit integer (R86). -/
def signedFlags (v : Word) : BitVec 3 :=
  if v.toInt < 0 then 0b100 else if v.toInt = 0 then 0b010 else 0b001

/-- `dr` holds `v`, the flags are those of `v`, and nothing else changed. -/
def RegisterResult (dr : Reg) (v : Word) (s t : State) : Prop :=
  t.reg dr = v ∧ (∀ r : Reg, r ≠ dr → t.reg r = s.reg r) ∧ t.cond = signedFlags v ∧ t.pc = s.pc ∧
    SameControl s t ∧ SamePorts s t ∧ SameMemory s t

/-- The cell `ea` holds `v`, and nothing else changed. -/
def StoreResult (ea v : Word) (s t : State) : Prop :=
  Memory.read t.mem ea = v ∧ (∀ a : Word, a ≠ ea → Memory.read t.mem a = Memory.read s.mem a) ∧
    SameRegs s t ∧ t.pc = s.pc ∧ t.cond = s.cond ∧ SameControl s t ∧ SamePorts s t

/-- `pc` holds `target`, R7 holds `linked` if there is one, and nothing else changed. -/
def JumpResult (target : Word) (linked : Option Word) (s t : State) : Prop :=
  t.pc = target ∧ t.reg 7 = linked.getD (s.reg 7) ∧ (∀ r : Reg, r ≠ 7 → t.reg r = s.reg r) ∧ t.cond = s.cond ∧
    SameControl s t ∧ SamePorts s t ∧ SameMemory s t

/-- The running instruction faulted: the record holds the cause, `ir` and the address it was fetched from, and no
register, flag or memory cell was written (R88, R132). -/
def FaultResult (cause : FaultCause) (s t : State) : Prop :=
  t.run = .faulted ⟨cause, s.ir, s.pc - 1⟩ ∧ SameRegs s t ∧ t.pc = s.pc ∧ t.cond = s.cond ∧ t.ir = s.ir ∧
    t.params = s.params ∧ t.ctl = s.ctl ∧ SamePorts s t ∧ SameMemory s t

/-- The one cell an instruction stores to, computed as its meaning computes it (R114 to R116). -/
def storeTarget (i : Instr) (s : State) : Option Word :=
  match i with
  | .st _ off9 => some (pcRelative off9 s)
  | .str _ base off6 => some (baseOffset base off6 s)
  | .sti _ off9 =>
    match memRead (pcRelative off9 s) s with
    | .value ea _ => some ea
    | .error _ => none
    | .silent _ => none
  | _ => none

/-- The register whose word a store writes (R114 to R116). -/
def storedReg : Instr → Option Reg
  | .st sr _ => some sr
  | .str sr _ _ => some sr
  | .sti sr _ => some sr
  | _ => none

/-- The general register an instruction's own rule writes (R21); TRAP's port may write any. -/
def writtenReg : Instr → Option Reg
  | .addReg dr _ _ _ => some dr
  | .addImm dr _ _ => some dr
  | .andReg dr _ _ _ => some dr
  | .andImm dr _ _ => some dr
  | .not dr _ _ => some dr
  | .ld dr _ => some dr
  | .ldr dr _ _ => some dr
  | .ldi dr _ => some dr
  | .lea dr _ => some dr
  | .jsr _ => some 7
  | .jsrr _ _ _ => some 7
  | _ => none

/-- BR, JMP, JSR or JSRR: the instructions that write `pc` (R24). -/
def writesPc : Instr → Bool
  | .br _ _ => true
  | .jmp _ _ _ => true
  | .jsr _ => true
  | .jsrr _ _ _ => true
  | _ => false

/-- ADD, AND, NOT, LD, LDR, LDI or LEA: the instructions that update the flags (R27, R87). -/
def updatesFlags : Instr → Bool
  | .addReg _ _ _ _ => true
  | .addImm _ _ _ => true
  | .andReg _ _ _ _ => true
  | .andImm _ _ _ => true
  | .not _ _ _ => true
  | .ld _ _ => true
  | .ldr _ _ _ => true
  | .ldi _ _ => true
  | .lea _ _ => true
  | _ => false

/-- LD, LDR, LDI or STI: the instructions that make a data read (R44). -/
def readsData : Instr → Bool
  | .ld _ _ => true
  | .ldr _ _ _ => true
  | .ldi _ _ => true
  | .sti _ _ => true
  | _ => false

/-- TRAP. -/
def isTrap : Instr → Bool
  | .trap _ _ => true
  | _ => false

/-- RTI or opcode 13: the opcodes without a handler (R66). -/
def isUnsupported : Instr → Bool
  | .rti _ => true
  | .reserved13 _ => true
  | _ => false

/-! ## Invariants of a run -/

/-- Exactly one of the three flag bits is set (R26). -/
def OneHot (c : BitVec 3) : Prop := c = 0b100 ∨ c = 0b010 ∨ c = 0b001

/-- The instruction `i` may raise the cause after its fetch (R131). -/
def mayRaise (cause : FaultCause) (strict : Bool) (i : Instr) : Bool :=
  match cause with
  | .badOpcode => isUnsupported i || !(i.wf strict)
  | .trapError => isTrap i
  | .deviceError => readsData i

/-- The fault record of a FAULTED core says what happened (R81, R88, R131, R132): either the fetch from `addr` failed
and `pc` still names it, or `pc` stands after `addr` and the word `ir` fetched there may raise the cause. -/
def FaultExplained (s : State) : Prop :=
  match s.run with
  | .faulted rec =>
    (rec.cause = .deviceError ∧ rec.ir = 0 ∧ s.pc = rec.addr ∧ s.params.deviceAddrs.contains rec.addr = true) ∨
    (s.pc = rec.addr + 1 ∧ s.ir = rec.ir ∧
      mayRaise rec.cause s.params.strictUnusedBits (decode rec.ir) = true)
  | .running => True
  | .halted => True
  | .stopped => True

end Sys2Proof.Machine
end

