-- ==== Sys2Proof/Certificates/Slice0/Obligations.lean ====
section
/-! DEFINITION. The statements for the provers. A meaning runs on the state after the fetch and the increment, so in a
statement about `exec i s` the program counter `s.pc` is the instruction's address plus 1 (R82). The bits of N, Z and P
in `cond` and in the BR mask are the spec's decision D2 (R25). The list `ctl` of control samples, of which a step takes
the first, is the model's own form (log entry 3). -/

namespace Sys2Proof.Claims

open Sys2Proof.Machine

/-- The last word a list of writes places at `a`, or `old` if it places none. -/
def lastWord (ws : List (Word × Word)) (a old : Word) : Word :=
  (ws.reverse.lookup a).getD old

/-- A bit that R67 calls unused differs from its canonical value in the word `w`. -/
def nonCanonicalWord (w : Word) : Prop :=
  ((w &&& 0xF020 = 0x1000 ∨ w &&& 0xF020 = 0x5000) ∧ w &&& 0x0018 ≠ 0) ∨
  (w &&& 0xF000 = 0x9000 ∧ w &&& 0x003F ≠ 0x003F) ∨
  (w &&& 0xF000 = 0xC000 ∧ w &&& 0x0E3F ≠ 0) ∨
  (w &&& 0xF800 = 0x4000 ∧ w &&& 0x063F ≠ 0) ∨
  (w &&& 0xF000 = 0xF000 ∧ w &&& 0x0F00 ≠ 0)

/-- The step from `s` writes the cell `ea`: a reset reloads the memory, or the instruction fetched stores there. -/
def writesCell (ea : Word) (s : State) : Prop :=
  (∃ image, s.control = .reset image) ∨
  s.control = .idle ∧ s.run = .running ∧ ∃ w s1, memRead s.pc { s with ctl := s.ctl.tail } = .value w s1 ∧
    storeTarget (decode w) { s1 with ir := w, pc := s.pc + 1 } = some ea

/-- `n` steps lead from `t` to `u`, and none of them writes the cell `ea`. -/
def reachesWithoutWriting (ea : Word) : Nat → State → State → Prop
  | 0, t, u => u = t
  | n + 1, t, u => ¬ writesCell ea t ∧ ∃ m, step t = .next m ∧ reachesWithoutWriting ea n m u

/-- The address of an instruction's first data read (R110 to R112, R116). -/
def firstRead : Instr → State → Option Word
  | .ld _ off9, s => some (pcRelative off9 s)
  | .ldr _ base off6, s => some (baseOffset base off6 s)
  | .ldi _ off9, s => some (pcRelative off9 s)
  | .sti _ off9, s => some (pcRelative off9 s)
  | _, _ => none

end Sys2Proof.Claims

open Sys2Proof Sys2Proof.Machine Sys2Proof.Claims

/-- ADD register writes the 16-bit sum and its flags.
Stated: R90. -/
def Obligations.AddRegisterWritesSum : Prop :=
  ∀ (dr sr1 : Reg) (u : BitVec 2) (sr2 : Reg) (s : State),
    decode (0b0001#4 ++ dr ++ sr1 ++ 0b0#1 ++ u ++ sr2) = .addReg dr sr1 u sr2 ∧
    ∃ t, exec (.addReg dr sr1 u sr2) s = .next t ∧
      RegisterResult dr (BitVec.ofNat 16 ((s.reg sr1).toNat + (s.reg sr2).toNat)) s t

/-- ADD immediate writes the sum with the sign-extended imm5 and its flags.
Stated: R91. -/
def Obligations.AddImmediateWritesSum : Prop :=
  ∀ (dr sr1 : Reg) (imm5 : BitVec 5) (s : State),
    decode (0b0001#4 ++ dr ++ sr1 ++ 0b1#1 ++ imm5) = .addImm dr sr1 imm5 ∧
    (∃ t, exec (.addImm dr sr1 imm5) s = .next t ∧
      RegisterResult dr (BitVec.ofInt 16 ((s.reg sr1).toNat + imm5.toInt)) s t) ∧
    ∀ (u : BitVec 2) (sr2 : Reg), s.reg sr2 = 0 →
      exec (.addReg dr sr1 u sr2) s = exec (.addImm dr sr1 0) s

/-- AND register writes the bitwise and and its flags.
Stated: R92. -/
def Obligations.AndRegisterWritesConjunction : Prop :=
  ∀ (dr sr1 : Reg) (u : BitVec 2) (sr2 : Reg) (s : State),
    decode (0b0101#4 ++ dr ++ sr1 ++ 0b0#1 ++ u ++ sr2) = .andReg dr sr1 u sr2 ∧
    ∃ v t, (∀ k, v.getLsbD k = ((s.reg sr1).getLsbD k && (s.reg sr2).getLsbD k)) ∧
      exec (.andReg dr sr1 u sr2) s = .next t ∧ RegisterResult dr v s t

/-- AND immediate writes the bitwise and with the sign-extended imm5 and its flags.
Stated: R93. -/
def Obligations.AndImmediateWritesConjunction : Prop :=
  ∀ (dr sr1 : Reg) (imm5 : BitVec 5) (s : State),
    decode (0b0101#4 ++ dr ++ sr1 ++ 0b1#1 ++ imm5) = .andImm dr sr1 imm5 ∧
    ∃ t, exec (.andImm dr sr1 imm5) s = .next t ∧
      RegisterResult dr (s.reg sr1 &&& BitVec.ofInt 16 imm5.toInt) s t

/-- NOT writes the bitwise complement and its flags.
Stated: R94. -/
def Obligations.NotWritesComplement : Prop :=
  ∀ (dr sr : Reg) (u : BitVec 6) (s : State),
    decode (0b1001#4 ++ dr ++ sr ++ u) = .not dr sr u ∧
    ∃ t, exec (.not dr sr u) s = .next t ∧
      RegisterResult dr (BitVec.ofNat 16 (65535 - (s.reg sr).toNat)) s t

/-- BR is taken exactly when its mask and the flags have a bit in common.
Stated: R100. -/
def Obligations.BranchTakenIffMaskMeetsFlags : Prop :=
  ∀ (nzp : BitVec 3) (off9 : BitVec 9) (s : State),
    decode (0b0000#4 ++ nzp ++ off9) = .br nzp off9 ∧
    ∃ t, exec (.br nzp off9) s = .next t ∧
      JumpResult
        (if (nzp.getLsbD 2 && s.cond.getLsbD 2) || (nzp.getLsbD 1 && s.cond.getLsbD 1) ||
            (nzp.getLsbD 0 && s.cond.getLsbD 0)
          then s.pc + BitVec.ofInt 16 off9.toInt else s.pc) none s t ∧
      (nzp = 0b000 → t.pc = s.pc) ∧
      (nzp = 0b111 → OneHot s.cond → t.pc = s.pc + BitVec.ofInt 16 off9.toInt)

/-- JMP sets pc to its base register and changes nothing else.
Stated: R101. -/
def Obligations.JmpLoadsProgramCounter : Prop :=
  ∀ (h : BitVec 3) (base : Reg) (l : BitVec 6) (s : State),
    decode (0b1100#4 ++ h ++ base ++ l) = .jmp h base l ∧ decode 0xC1C0 = .jmp 0 7 0 ∧
    ∃ t, exec (.jmp h base l) s = .next t ∧ JumpResult (s.reg base) none s t

/-- JSR saves the incremented pc in R7 and adds its signed offset to pc.
Stated: R102. -/
def Obligations.JsrLinksAndJumps : Prop :=
  ∀ (off11 : BitVec 11) (s : State),
    decode (0b0100#4 ++ 0b1#1 ++ off11) = .jsr off11 ∧
    ∃ t, exec (.jsr off11) s = .next t ∧
      JumpResult (s.pc + BitVec.ofInt 16 off11.toInt) (some s.pc) s t

/-- JSRR saves pc in R7 first, then jumps to BaseR (spec's decision D11 for BaseR = 7).
Derived: 42_control.md (JSRR), 92_eei_decisions.md D11.
That `JSRR R7` falls through is the spec's own decision D11. -/
def Obligations.JsrrLinksThenReadsBase : Prop :=
  ∀ (h : BitVec 2) (base : Reg) (l : BitVec 6) (s : State),
    decode (0b0100#4 ++ 0b0#1 ++ h ++ base ++ l) = .jsrr h base l ∧
    ∃ t, exec (.jsrr h base l) s = .next t ∧
      JumpResult (if base = 7 then s.pc else s.reg base) (some s.pc) s t

/-- LD loads the word at pc + PCoffset9 and sets the flags.
Stated: R110. -/
def Obligations.LdLoadsAndSetsFlags : Prop :=
  ∀ (dr : Reg) (off9 : BitVec 9) (s : State), Memory.wf s.mem = true →
    decode (0b0010#4 ++ dr ++ off9) = .ld dr off9 ∧
    (∀ v s1, memRead (s.pc + BitVec.ofInt 16 off9.toInt) s = .value v s1 →
      ∃ t, exec (.ld dr off9) s = .next t ∧ RegisterResult dr v s1 t ∧ ReadFrame s s1) ∧
    (∀ s1, memRead (s.pc + BitVec.ofInt 16 off9.toInt) s = .error s1 →
      ∃ t, exec (.ld dr off9) s = .next t ∧ FaultResult .deviceError s1 t ∧ ReadFrame s s1 ∧ SameMemory s t)

/-- LDR loads the word at BaseR + offset6 and sets the flags.
Stated: R111. -/
def Obligations.LdrLoadsAndSetsFlags : Prop :=
  ∀ (dr base : Reg) (off6 : BitVec 6) (s : State), Memory.wf s.mem = true →
    decode (0b0110#4 ++ dr ++ base ++ off6) = .ldr dr base off6 ∧
    (∀ v s1, memRead (s.reg base + BitVec.ofInt 16 off6.toInt) s = .value v s1 →
      ∃ t, exec (.ldr dr base off6) s = .next t ∧ RegisterResult dr v s1 t ∧ ReadFrame s s1) ∧
    (∀ s1, memRead (s.reg base + BitVec.ofInt 16 off6.toInt) s = .error s1 →
      ∃ t, exec (.ldr dr base off6) s = .next t ∧ FaultResult .deviceError s1 t ∧ ReadFrame s s1 ∧ SameMemory s t)

/-- LDI reads a pointer, then the word it names, and sets the flags.
Stated: R112. -/
def Obligations.LdiLoadsThroughPointer : Prop :=
  ∀ (dr : Reg) (off9 : BitVec 9) (s : State), Memory.wf s.mem = true →
    decode (0b1010#4 ++ dr ++ off9) = .ldi dr off9 ∧
    (∀ ea s1 v s2, memRead (s.pc + BitVec.ofInt 16 off9.toInt) s = .value ea s1 → memRead ea s1 = .value v s2 →
      ∃ t, exec (.ldi dr off9) s = .next t ∧ RegisterResult dr v s2 t ∧ ReadFrame s s2) ∧
    (∀ s1, memRead (s.pc + BitVec.ofInt 16 off9.toInt) s = .error s1 →
      ∃ t, exec (.ldi dr off9) s = .next t ∧ FaultResult .deviceError s1 t ∧ ReadFrame s s1 ∧ SameMemory s t) ∧
    (∀ ea s1 s2, memRead (s.pc + BitVec.ofInt 16 off9.toInt) s = .value ea s1 → memRead ea s1 = .error s2 →
      ∃ t, exec (.ldi dr off9) s = .next t ∧ FaultResult .deviceError s2 t ∧ ReadFrame s s2 ∧ SameMemory s1 t)

/-- LEA writes pc + PCoffset9 and its flags, with no memory access.
Stated: R113. -/
def Obligations.LeaWritesAddress : Prop :=
  ∀ (dr : Reg) (off9 : BitVec 9) (s : State),
    decode (0b1110#4 ++ dr ++ off9) = .lea dr off9 ∧
    ∃ t, exec (.lea dr off9) s = .next t ∧
      RegisterResult dr (s.pc + BitVec.ofInt 16 off9.toInt) s t

/-- ST stores SR at pc + PCoffset9 and changes nothing else.
Stated: R114. -/
def Obligations.StStoresRegister : Prop :=
  ∀ (sr : Reg) (off9 : BitVec 9) (s : State), Memory.wf s.mem = true →
    decode (0b0011#4 ++ sr ++ off9) = .st sr off9 ∧
    pcRelative off9 s = s.pc + BitVec.ofInt 16 off9.toInt ∧
    ∃ t, exec (.st sr off9) s = .next t ∧ StoreResult (pcRelative off9 s) (s.reg sr) s t

/-- STR stores SR at BaseR + offset6 and changes nothing else.
Stated: R115. -/
def Obligations.StrStoresRegister : Prop :=
  ∀ (sr base : Reg) (off6 : BitVec 6) (s : State), Memory.wf s.mem = true →
    decode (0b0111#4 ++ sr ++ base ++ off6) = .str sr base off6 ∧
    baseOffset base off6 s = s.reg base + BitVec.ofInt 16 off6.toInt ∧
    ∃ t, exec (.str sr base off6) s = .next t ∧ StoreResult (baseOffset base off6 s) (s.reg sr) s t

/-- STI reads a pointer and stores SR in the cell it names.
Stated: R116. -/
def Obligations.StiStoresThroughPointer : Prop :=
  ∀ (sr : Reg) (off9 : BitVec 9) (s : State), Memory.wf s.mem = true →
    decode (0b1011#4 ++ sr ++ off9) = .sti sr off9 ∧
    pcRelative off9 s = s.pc + BitVec.ofInt 16 off9.toInt ∧
    (∀ ea s1, memRead (pcRelative off9 s) s = .value ea s1 →
      ∃ t, exec (.sti sr off9) s = .next t ∧ StoreResult ea (s.reg sr) s1 t ∧ ReadFrame s s1) ∧
    (∀ s1, memRead (pcRelative off9 s) s = .error s1 →
      ∃ t, exec (.sti sr off9) s = .next t ∧ FaultResult .deviceError s1 t ∧ ReadFrame s s1 ∧ SameMemory s t)

/-- TRAP sends its request until it is answered and applies the answer (spec's decision D12).
Derived: 44_trap_and_unsupported.md (TRAP), 44_trap_and_unsupported.md (the trap port contract), 92_eei_decisions.md D12, 60_exceptions.md section 3.
That TRAP writes neither R7 nor `pc` and that the port cannot write memory is the spec's own decision D12. -/
def Obligations.TrapAppliesPortAnswer : Prop :=
  ∀ (u : BitVec 4) (vect : BitVec 8) (s : State) (n : Nat) (x : TrapAnswer) (rest : List (PortResponse TrapAnswer)),
    s.trapIn = List.replicate n .retry ++ .answer x :: rest →
    decode (0b1111#4 ++ u ++ vect) = .trap u vect ∧
    ∃ t, exec (.trap u vect) s = .next t ∧ t.trapIn = rest ∧
      t.sent = List.replicate (n + 1) (.trap ⟨vect, s.regs, s.pc, s.cond, s.mem⟩) ++ s.sent ∧
      t.pc = s.pc ∧ t.mem = s.mem ∧ t.devIn = s.devIn ∧ t.ir = s.ir ∧ t.params = s.params ∧ t.ctl = s.ctl ∧
      match x with
      | .cont r c => t.regs = r ∧ t.cond = flagBits c ∧ t.run = s.run
      | .halt r c => t.regs = r ∧ t.cond = flagBits c ∧ t.run = .halted
      | .error => t.regs = s.regs ∧ t.cond = s.cond ∧ t.run = .faulted ⟨.trapError, s.ir, s.pc - 1⟩

/-- RTI always raises BAD_OPCODE and has no other effect.
Stated: R121. -/
def Obligations.RtiRaisesBadOpcode : Prop :=
  ∀ (x : BitVec 12) (s : State),
    decode (0b1000#4 ++ x) = .rti x ∧
    ∃ t, exec (.rti x) s = .next t ∧ FaultResult .badOpcode s t

/-- Opcode 13 always raises BAD_OPCODE and has no other effect.
Stated: R122. -/
def Obligations.ReservedOpcodeRaisesBadOpcode : Prop :=
  ∀ (x : BitVec 12) (s : State),
    decode (0b1101#4 ++ x) = .reserved13 x ∧
    ∃ t, exec (.reserved13 x) s = .next t ∧ FaultResult .badOpcode s t

/-- setcc sets N, Z or P from the signed value and nothing else.
Stated: R86. -/
def Obligations.SetccSetsSignedFlag : Prop :=
  ∀ (s : State) (v : Word),
    s.setcc v = { s with cond := signedFlags v } ∧ OneHot (s.setcc v).cond ∧
    (v.getLsbD 15 = true ↔ v.toInt < 0) ∧ (v = 0x0000 ↔ v.toInt = 0)

/-- sext keeps the low bits, fills the upper bits with the sign and keeps the signed value.
Stated: R85. -/
def Obligations.SignExtensionKeepsSignedValue : Prop :=
  ∀ n : Nat, n = 5 ∨ n = 6 ∨ n = 9 ∨ n = 11 → ∀ v : BitVec n,
    (∀ k, k < n → (sext v).getLsbD k = v.getLsbD k) ∧
    (∀ k, n ≤ k → k < 16 → (sext v).getLsbD k = v.getLsbD (n - 1)) ∧
    (sext v).toInt = v.toInt ∧
    v.toInt = if v.getLsbD (n - 1) then (v.toNat : Int) - 2 ^ n else v.toNat

/-- Every effective address is its sum modulo 65536.
Derived: 20_memory.md section 1, 43_load_store.md (addressing modes), 40_dispatch.md section 2. -/
def Obligations.EffectiveAddressesWrap : Prop :=
  ∀ (s : State) (off9 : BitVec 9) (off11 : BitVec 11) (base : Reg) (off6 : BitVec 6),
    ((pcRelative off9 s).toNat : Int) = ((s.pc.toNat : Int) + off9.toInt) % 65536 ∧
    ((pcRelative off11 s).toNat : Int) = ((s.pc.toNat : Int) + off11.toInt) % 65536 ∧
    ((baseOffset base off6 s).toNat : Int) = (((s.reg base).toNat : Int) + off6.toInt) % 65536

/-- A read outside DEVICE_ADDRS gives the stored word and changes nothing.
Derived: 20_memory.md section 3, 20_memory.md section 5. -/
def Obligations.OrdinaryReadGivesStoredWord : Prop :=
  ∀ (s : State) (a b v : Word), Memory.wf s.mem = true → s.params.deviceAddrs.contains a = false →
    memRead a s = .value (Memory.read s.mem a) s ∧
    memRead a (s.memWrite a v) = .value v (s.memWrite a v) ∧
    (a ≠ b → memRead a (s.memWrite b v) = .value (Memory.read s.mem a) (s.memWrite b v))

/-- LD, LDR, LDI and STI complete where the cells they read are not device cells.
Derived: 43_load_store.md (loads), 43_load_store.md (stores), 20_memory.md section 3. -/
def Obligations.LoadsAndIndirectStoresCompleteOnOrdinaryMemory : Prop :=
  ∀ (s : State) (r base : Reg) (off9 : BitVec 9) (off6 : BitVec 6), Memory.wf s.mem = true →
    (s.params.deviceAddrs.contains (pcRelative off9 s) = false →
      ∃ t, exec (.ld r off9) s = .next t ∧ RegisterResult r (Memory.read s.mem (pcRelative off9 s)) s t) ∧
    (s.params.deviceAddrs.contains (baseOffset base off6 s) = false →
      ∃ t, exec (.ldr r base off6) s = .next t ∧
        RegisterResult r (Memory.read s.mem (baseOffset base off6 s)) s t) ∧
    (s.params.deviceAddrs.contains (pcRelative off9 s) = false →
      s.params.deviceAddrs.contains (Memory.read s.mem (pcRelative off9 s)) = false →
      ∃ t, exec (.ldi r off9) s = .next t ∧
        RegisterResult r (Memory.read s.mem (Memory.read s.mem (pcRelative off9 s))) s t) ∧
    (s.params.deviceAddrs.contains (pcRelative off9 s) = false →
      ∃ t, exec (.sti r off9) s = .next t ∧
        StoreResult (Memory.read s.mem (pcRelative off9 s)) (s.reg r) s t)

/-- A read of a device address follows the device port's answers (spec's decisions D7, D9).
Derived: 20_memory.md section 3, 92_eei_decisions.md D7, 92_eei_decisions.md D9.
A pair of `w` outside DEVICE_ADDRS, which R46 rules out, writes nothing (the model's choice, log entry 7). -/
def Obligations.DeviceReadFollowsPortAnswers : Prop :=
  ∀ (s : State) (a : Word) (n : Nat) (x : DeviceAnswer) (rest : List (PortResponse DeviceAnswer)),
    Memory.wf s.mem = true → s.params.deviceAddrs.contains a = true →
    s.devIn = List.replicate n .retry ++ .answer x :: rest →
    match x with
    | .value v w => ∃ s1, memRead a s = .value v s1 ∧ s1.devIn = rest ∧
        s1.sent = List.replicate (n + 1) (.devread a) ++ s.sent ∧ ReadFrame s s1 ∧
        ∀ b, s.params.deviceAddrs.contains b = true →
          Memory.read s1.mem b = lastWord w b (Memory.read s.mem b)
    | .error => ∃ s1, memRead a s = .error s1 ∧ s1.devIn = rest ∧
        s1.sent = List.replicate (n + 1) (.devread a) ++ s.sent ∧ ReadFrame s s1 ∧ SameMemory s s1

/-- A write to a device address stores the word and sends nothing (spec's decision D8).
Derived: 20_memory.md section 3, 92_eei_decisions.md D8.
That nothing is sent to the device is the spec's own decision D8. -/
def Obligations.WriteToDeviceCellReachesOnlyTheCell : Prop :=
  ∀ (s : State) (a v x : Word) (rest : List (PortResponse DeviceAnswer)),
    Memory.wf s.mem = true → s.params.deviceAddrs.contains a = true → s.devIn = .answer (.value x []) :: rest →
    StoreResult a v s (s.memWrite a v) ∧
    ∃ s1, memRead a (s.memWrite a v) = .value x s1 ∧ Memory.read s1.mem a = v

/-- LDI through a device pointer to a device cell makes the two requests in order.
Derived: 20_memory.md section 5, 43_load_store.md (LDI). -/
def Obligations.LdiAsksDeviceForPointerFirst : Prop :=
  ∀ (s : State) (dr : Reg) (off9 : BitVec 9) (ea v : Word) (w1 w2 : List (Word × Word))
    (rest : List (PortResponse DeviceAnswer)),
    s.params.deviceAddrs.contains (s.pc + BitVec.ofInt 16 off9.toInt) = true →
    s.params.deviceAddrs.contains ea = true →
    s.devIn = .answer (.value ea w1) :: .answer (.value v w2) :: rest →
    ∃ t, exec (.ldi dr off9) s = .next t ∧ t.reg dr = v ∧ t.devIn = rest ∧
      t.sent = .devread ea :: .devread (s.pc + BitVec.ofInt 16 off9.toInt) :: s.sent

/-- A step runs the instruction the fetched word decodes to, after the increment of pc.
Derived: 40_dispatch.md section 1, 30_encoding.md section 2. -/
def Obligations.StepRunsDecodedInstruction : Prop :=
  ∀ (s s1 : State) (w : Word) (i : Instr),
    s.control = .idle → s.run = .running → memRead s.pc { s with ctl := s.ctl.tail } = .value w s1 →
    decode w = i → i.wf s.params.strictUnusedBits = true →
    step s = exec i { s1 with ir := w, pc := s.pc + 1 }

/-- A device error on the fetch faults with ir = 0 and leaves pc (spec's decision D16).
Derived: 40_dispatch.md section 1, 92_eei_decisions.md D16.
The record and the kept `pc` are the spec's own decision D16. -/
def Obligations.FetchErrorKeepsProgramCounter : Prop :=
  ∀ (s s1 : State), s.control = .idle → s.run = .running →
    memRead s.pc { s with ctl := s.ctl.tail } = .error s1 →
    ∃ t, step s = .next t ∧ t.run = .faulted ⟨.deviceError, 0x0000, s.pc⟩ ∧ t.pc = s.pc ∧ t.ir = s.ir ∧
      SameRegs s t ∧ t.cond = s.cond ∧ SameMemory s t ∧ t.trapIn = s.trapIn

/-- Under STRICT_UNUSED_BITS a non-canonical word faults; else unused bits are ignored (D10).
Derived: 30_encoding.md section 3, 92_eei_decisions.md D10.
The parameter and its default are the spec's own decision D10; the canonical values are those of R67. -/
def Obligations.StrictUnusedBitsFault : Prop :=
  ∀ (s s1 : State) (w : Word),
    s.control = .idle → s.run = .running → memRead s.pc { s with ctl := s.ctl.tail } = .value w s1 →
    (s.params.strictUnusedBits = true → nonCanonicalWord w →
      ∃ t, step s = .next t ∧ FaultResult .badOpcode { s1 with ir := w, pc := s.pc + 1 } t) ∧
    (s.params.strictUnusedBits = true → ¬ nonCanonicalWord w →
      step s = exec (decode w) { s1 with ir := w, pc := s.pc + 1 }) ∧
    (s.params.strictUnusedBits = false → step s = exec (decode w) { s1 with ir := w, pc := s.pc + 1 })

/-- Two instructions that differ in unused bits alone have one meaning (spec's decision D10).
Derived: 30_encoding.md section 3, 92_eei_decisions.md D10. -/
def Obligations.UnusedBitsDoNotReachHandlers : Prop :=
  ∀ (s : State) (a b c : Reg) (vect : BitVec 8) (u2 u2' : BitVec 2) (u3 u3' : BitVec 3) (u4 u4' : BitVec 4)
    (u6 u6' : BitVec 6),
    exec (.addReg a b u2 c) s = exec (.addReg a b u2' c) s ∧ exec (.andReg a b u2 c) s = exec (.andReg a b u2' c) s ∧
    exec (.not a b u6) s = exec (.not a b u6') s ∧ exec (.jmp u3 a u6) s = exec (.jmp u3' a u6') s ∧
    exec (.jsrr u2 a u6) s = exec (.jsrr u2' a u6') s ∧ exec (.trap u4 vect) s = exec (.trap u4' vect) s

/-- The word 0x0000 only advances pc.
Derived: 30_encoding.md section 3.
That a step takes one control sample off the list is the model's own form (log entry 3). -/
def Obligations.ZeroWordIsNoOperation : Prop :=
  ∀ s : State, s.control = .idle → s.run = .running → s.params.deviceAddrs.contains s.pc = false →
    Memory.read s.mem s.pc = 0x0000 →
    step s = .next { s with pc := BitVec.ofNat 16 (s.pc.toNat + 1), ir := 0x0000, ctl := s.ctl.tail }

/-- stop makes a RUNNING core STOPPED before its next fetch (spec's decision D15).
Derived: 60_exceptions.md section 3, 92_eei_decisions.md D15.
That a step takes one control sample off the list is the model's own form (log entry 3). -/
def Obligations.StopIsTakenBeforeTheFetch : Prop :=
  ∀ s : State, s.run = .running → s.control = .stop →
    step s = .next { s with run := .stopped, ctl := s.ctl.tail }

/-- HALTED, STOPPED and FAULTED take no step and only reset leaves them (D17); that a step uses up a control sample there is the model's choice.
Derived: 60_exceptions.md section 3, 92_eei_decisions.md D17.
Of the spec's decision D17 are that no step is taken, that the state is kept and that only reset leaves it.
That a sampled `stop` is used up (log entry 3, DEDUCED) and that `step` answers the same state less the control sample (log
entry 11, DESIGN CHOICE) are the model's own. -/
def Obligations.TerminalStatesTakeNoStep : Prop :=
  ∀ s : State, s.run ≠ .running →
    ((∀ image, s.control ≠ .reset image) → step s = .next { s with ctl := s.ctl.tail }) ∧
    (∀ image, s.control = .reset image → ∃ t, step s = .next t ∧ t.run = .running)

/-- reset gives the start values and reloads memory (D3, D4, D18); overlapping placements and what a reset keeps are the model's choice.
Derived: 70_reset_and_hazards.md section 1, 70_reset_and_hazards.md section 2, 10_state.md section 6, 92_eei_decisions.md D3, 92_eei_decisions.md D4, 92_eei_decisions.md D18.
That the last of several words an image places in one cell counts, and that the parameters, the remaining control
samples, the ports' responses and the requests sent stay, are the model's own (log entry 3, DESIGN CHOICE): R152 and
91_not_in_source.md G11 leave overlapping images to the loader. -/
def Obligations.ResetInputRestoresStartState : Prop :=
  ∀ (s : State) (image : List (Word × Word)), s.control = .reset image →
    ∃ t, step s = .next t ∧ (∀ r : Reg, t.reg r = 0x0000) ∧ t.pc = s.params.entryPc ∧ t.cond = 0b010 ∧
      t.run = .running ∧ (∀ a : Word, Memory.read t.mem a = lastWord image a 0x0000) ∧
      t.params = s.params ∧ t.ctl = s.ctl.tail ∧ SamePorts s t

/-- State.reset holds the start values the spec gives (D3, D4, D5).
Derived: 10_state.md section 6, 00_scope.md section 3, 92_eei_decisions.md D3, 92_eei_decisions.md D4, 92_eei_decisions.md D5. -/
def Obligations.ResetStateValues : Prop :=
  (∀ r : Reg, State.reset.reg r = 0x0000) ∧ State.reset.pc = 0x3000 ∧ State.reset.cond = 0b010 ∧
    State.reset.run = .running ∧ (∀ a : Word, Memory.read State.reset.mem a = 0x0000) ∧
    State.reset.params.entryPc = 0x3000 ∧ State.reset.params.strictUnusedBits = false ∧
    (∀ a : Word, State.reset.params.deviceAddrs.contains a = true ↔ a = 0xFE00 ∨ a = 0xFE02)

/-- The words of the spec's worked examples decode to their instructions.
Derived: 41_operate.md, 42_control.md, 43_load_store.md, 44_trap_and_unsupported.md. -/
def Obligations.WorkedWordsDecode : Prop :=
  decode 0x1042 = .addReg 0 1 0 2 ∧ decode 0x1225 = .addImm 1 0 5 ∧ decode 0x527E = .andImm 1 1 0b11110 ∧
    decode 0x92BF = .not 1 2 0b111111 ∧ decode 0x0401 = .br 0b010 1 ∧ decode 0xC080 = .jmp 0 2 0 ∧
    decode 0x4805 = .jsr 5 ∧ decode 0x40C0 = .jsrr 0 3 0 ∧ decode 0x2002 = .ld 0 2 ∧
    decode 0x62BF = .ldr 1 2 0b111111 ∧ decode 0xA601 = .ldi 3 1 ∧ decode 0xEBFE = .lea 5 0b111111110 ∧
    decode 0x3203 = .st 1 3 ∧ decode 0x74DF = .str 2 3 31 ∧ decode 0xB001 = .sti 0 1 ∧ decode 0xF025 = .trap 0 0x25

/-- Decoding the word of any instruction gives that instruction back.
Derived: 30_encoding.md section 1, 30_encoding.md section 3. -/
def Obligations.DecodeUndoesEncode : Prop :=
  ∀ i : Instr, decode (encode i) = i

/-- Encoding what any word decodes to gives that word back.
Derived: 30_encoding.md section 3. -/
def Obligations.EncodeUndoesDecode : Prop :=
  ∀ w : Word, encode (decode w) = w

/-- A word matches the mask and match of exactly the table row it decodes to.
Derived: 30_encoding.md section 3, opcode_table.json. -/
def Obligations.EveryWordMatchesExactlyItsRow : Prop :=
  ∀ (w : Word) (i : Instr),
    (w &&& i.tableRow.1 = i.tableRow.2) ↔ (decode w).tableRow = i.tableRow

/-- Every step keeps the memory in its canonical form.
Derived: 20_memory.md section 1. -/
def Obligations.StepKeepsMemoryCanonical : Prop :=
  ∀ s t : State, Memory.wf s.mem = true → step s = .next t → Memory.wf t.mem = true

/-- Every step keeps exactly one condition flag set.
Derived: 10_state.md section 3, 44_trap_and_unsupported.md (the trap port contract). -/
def Obligations.StepKeepsFlagsOneHot : Prop :=
  ∀ s t : State, OneHot s.cond → step s = .next t → OneHot t.cond

/-- Every step keeps the fault record true of what happened (D14, D16).
Derived: 60_exceptions.md section 1, 40_dispatch.md section 1, 92_eei_decisions.md D14, 92_eei_decisions.md D16. -/
def Obligations.StepKeepsFaultRecordExplained : Prop :=
  ∀ s t : State, FaultExplained s → step s = .next t → FaultExplained t

/-- The state after reset meets the invariants.
Derived: 10_state.md section 6, 70_reset_and_hazards.md section 1. -/
def Obligations.ResetMeetsTheInvariants : Prop :=
  (Memory.wf State.reset.mem = true ∧ OneHot State.reset.cond ∧ FaultExplained State.reset) ∧
    ∀ (s : State) (image : List (Word × Word)),
      Memory.wf (s.takeReset image).mem = true ∧ OneHot (s.takeReset image).cond ∧ FaultExplained (s.takeReset image)

/-- A step that faults writes no register, flag or ordinary memory cell (spec's decision D16).
Derived: 40_dispatch.md section 1, 60_exceptions.md section 1, 92_eei_decisions.md D16. -/
def Obligations.FaultingStepWritesNothing : Prop :=
  ∀ (s t : State) (rec : FaultRecord), Memory.wf s.mem = true → s.run = .running → step s = .next t →
    t.run = .faulted rec →
    SameRegs s t ∧ t.cond = s.cond ∧ SameOrdinaryMemory s t ∧ rec.addr = s.pc ∧
      ((t.pc = s.pc + 1 ∧ rec.ir = t.ir) ∨ (t.pc = s.pc ∧ rec.ir = 0x0000 ∧ rec.cause = .deviceError))

/-- Only a TRAP takes the core to HALTED.
Derived: 44_trap_and_unsupported.md (the trap port contract), 10_state.md section 4. -/
def Obligations.OnlyTrapHaltsTheRun : Prop :=
  ∀ s t : State, s.run ≠ .halted → step s = .next t → t.run = .halted →
    (∃ w s1, memRead s.pc { s with ctl := s.ctl.tail } = .value w s1 ∧ isTrap (decode w) = true) ∧
    ∃ r rest, t.sent = .trap r :: rest

/-- No instruction but TRAP writes a register its rule does not name.
Derived: 10_state.md section 1. -/
def Obligations.RegistersHaveOnlyTheirWriters : Prop :=
  ∀ (i : Instr) (s t : State) (r : Reg), isTrap i = false → writtenReg i ≠ some r → exec i s = .next t →
    t.reg r = s.reg r

/-- After the increment only BR, JMP, JSR and JSRR write pc (spec's decision D12 for TRAP).
Derived: 10_state.md section 2, 92_eei_decisions.md D12. -/
def Obligations.ProgramCounterHasOnlyItsWriters : Prop :=
  ∀ (i : Instr) (s t : State), writesPc i = false → exec i s = .next t → t.pc = s.pc

/-- Only ADD, AND, NOT, LD, LDR, LDI, LEA and a trap answer change the flags.
Derived: 10_state.md section 3, 40_dispatch.md section 3. -/
def Obligations.FlagsHaveOnlyTheirWriters : Prop :=
  ∀ (i : Instr) (s t : State), exec i s = .next t →
    (updatesFlags i = false → isTrap i = false → t.cond = s.cond) ∧
    (updatesFlags i = true → s.run = .running → t.run = .running →
      ∃ dr, writtenReg i = some dr ∧ t.cond = signedFlags (t.reg dr))

/-- A step changes no memory cell but device cells and the cell a store names.
Derived: 20_memory.md section 3, 40_dispatch.md section 1, 43_load_store.md (stores). -/
def Obligations.MemoryHasOnlyItsWriters : Prop :=
  ∀ (s s1 t : State) (w a : Word), Memory.wf s.mem = true → s.control = .idle → s.run = .running →
    memRead s.pc { s with ctl := s.ctl.tail } = .value w s1 → step s = .next t →
    s.params.deviceAddrs.contains a = false →
    (∀ ea, storeTarget (decode w) { s1 with ir := w, pc := s.pc + 1 } = some ea → a ≠ ea) →
    Memory.read t.mem a = Memory.read s.mem a

/-- After the fetch, only data reads ask the device port and only TRAP asks the trap port.
Derived: 20_memory.md section 3, 44_trap_and_unsupported.md (the trap port contract), 90_conflicts.md C4. -/
def Obligations.PortsAreAskedOnlyByTheirInstructions : Prop :=
  ∀ (i : Instr) (s t : State), exec i s = .next t →
    ∃ new, t.sent = new ++ s.sent ∧ ∀ q ∈ new,
      match q with
      | .devread a => readsData i = true ∧ s.params.deviceAddrs.contains a = true
      | .trap r => (∃ u, i = .trap u r.vect) ∧ r.regs = s.regs ∧ r.pc = s.pc ∧ r.cond = s.cond ∧ r.mem = s.mem

/-- After the fetch, an instruction always completes, unless a port never answers it.
Derived: 60_exceptions.md section 1, 93_implementation_defined.md U7, 93_implementation_defined.md U10. -/
def Obligations.OnlyASilentPortStopsAnInstruction : Prop :=
  ∀ (i : Instr) (s : State),
    (∃ t, exec i s = .next t) ∨
    (∃ a, exec i s = .fault (.devicePortSilent a) ∧ readsData i = true ∧ s.params.deviceAddrs.contains a = true) ∨
    (∃ u vect, i = .trap u vect ∧ exec i s = .fault (.trapPortSilent vect))

/-- A store to an ordinary cell is what the next and every later fetch of it reads, and it leaves the running ir.
Stated: R53.
A device cell holds the stored word too, but a fetch from it asks the device port (R45, R47). -/
def Obligations.StoreIsSeenByTheNextFetch : Prop :=
  ∀ (s s1 t : State) (w ea : Word) (sr : Reg), Memory.wf s.mem = true → s.control = .idle → s.run = .running →
    memRead s.pc { s with ctl := s.ctl.tail } = .value w s1 → step s = .next t →
    storeTarget (decode w) { s1 with ir := w, pc := s.pc + 1 } = some ea → storedReg (decode w) = some sr →
    t.ir = w ∧ t.pc = s.pc + 1 ∧ Memory.read t.mem ea = s.reg sr ∧
      (s.params.deviceAddrs.contains ea = false → ∀ (n : Nat) (u : State), reachesWithoutWriting ea n t u → u.pc = ea →
        memRead u.pc { u with ctl := u.ctl.tail } = .value (s.reg sr) { u with ctl := u.ctl.tail })

/-- What ir holds between steps has no effect on a step whose fetch succeeds.
Derived: 10_state.md section 5. -/
def Obligations.InstructionRegisterCarriesNoMeaning : Prop :=
  ∀ (s s1 : State) (w x : Word), s.control = .idle → s.run = .running →
    memRead s.pc { s with ctl := s.ctl.tail } = .value w s1 → step { s with ir := x } = step s

/-- No instruction can read the run state or the fault record.
Derived: 10_state.md section 4. -/
def Obligations.NoInstructionReadsTheRunState : Prop :=
  ∀ (i : Instr) (s t : State) (r : RunState), exec i s = .next t →
    ∃ t', exec i { s with run := r } = .next t' ∧ t'.regs = t.regs ∧ t'.pc = t.pc ∧ t'.cond = t.cond ∧
      t'.mem = t.mem ∧ t'.sent = t.sent

/-- No step changes the implementation parameters.
Derived: 00_scope.md section 3. -/
def Obligations.ParametersNeverChange : Prop :=
  ∀ s t : State, step s = .next t → t.params = s.params

/-- A step always answers a next state, unless a port never answers its fetch, its data reads or its TRAP.
Derived: 40_dispatch.md section 1, 20_memory.md section 3, 60_exceptions.md section 1, 93_implementation_defined.md U7, 93_implementation_defined.md U10. -/
def Obligations.OnlyASilentPortStopsAStep : Prop :=
  ∀ s : State, (∃ t, step s = .next t) ∨
    (s.control = .idle ∧ s.run = .running ∧
      ((step s = .fault (.devicePortSilent s.pc) ∧ s.params.deviceAddrs.contains s.pc = true ∧
          memRead s.pc { s with ctl := s.ctl.tail } = .silent s.pc) ∨
        ∃ w s1, memRead s.pc { s with ctl := s.ctl.tail } = .value w s1 ∧
          ((∃ a, step s = .fault (.devicePortSilent a) ∧ readsData (decode w) = true ∧
              s.params.deviceAddrs.contains a = true) ∨
            ∃ u vect, decode w = .trap u vect ∧ step s = .fault (.trapPortSilent vect))))

/-- A fetch, a data read or a TRAP that its port never answers stops with the fault that names it.
Derived: 20_memory.md section 3, 44_trap_and_unsupported.md (TRAP), 70_reset_and_hazards.md section 4, 93_implementation_defined.md U7, 93_implementation_defined.md U10.
That past the end of a port's list the free value is the answer, or that none comes, is the model's form (log entry 5); that
an unanswered request is `stuck` is U7 and U10. -/
def Obligations.UnansweredRequestsStopTheStep : Prop :=
  (∀ (s : State) (n : Nat), s.control = .idle → s.run = .running → s.params.deviceAddrs.contains s.pc = true →
    s.devIn = List.replicate n .retry →
    match Config.devicePort (List.replicate (n + 1) (.devread s.pc) ++ s.sent) s.mem with
    | none => step s = .fault (.devicePortSilent s.pc)
    | some .error => ∃ t, step s = .next t ∧ t.run = .faulted ⟨.deviceError, 0x0000, s.pc⟩
    | some (.value w _) => ∃ s1, step s = dispatch (decode w) s1 ∧ s1.ir = w ∧ s1.pc = s.pc + 1) ∧
  (∀ (i : Instr) (s : State) (n : Nat) (a : Word), firstRead i s = some a →
    s.params.deviceAddrs.contains a = true → s.devIn = List.replicate n .retry →
    match Config.devicePort (List.replicate (n + 1) (.devread a) ++ s.sent) s.mem with
    | none => exec i s = .fault (.devicePortSilent a)
    | some _ => ∀ b, memRead a s ≠ .silent b) ∧
  (∀ (dr : Reg) (off9 : BitVec 9) (s s1 : State) (ea : Word) (n : Nat),
    memRead (pcRelative off9 s) s = .value ea s1 → s.params.deviceAddrs.contains ea = true →
    s1.devIn = List.replicate n .retry →
    match Config.devicePort (List.replicate (n + 1) (.devread ea) ++ s1.sent) s1.mem with
    | none => exec (.ldi dr off9) s = .fault (.devicePortSilent ea)
    | some _ => ∃ t, exec (.ldi dr off9) s = .next t) ∧
  (∀ (u : BitVec 4) (vect : BitVec 8) (s : State) (n : Nat), s.trapIn = List.replicate n .retry →
    match Config.trapPort (List.replicate (n + 1) (.trap ⟨vect, s.regs, s.pc, s.cond, s.mem⟩) ++ s.sent) with
    | none => exec (.trap u vect) s = .fault (.trapPortSilent vect)
    | some _ => ∃ t, exec (.trap u vect) s = .next t)

/-- A step sends the read of its fetch first, then only its instruction's requests.
Derived: 20_memory.md section 3, 20_memory.md section 5, 44_trap_and_unsupported.md (the trap port contract), 92_eei_decisions.md D9, 90_conflicts.md C4. -/
def Obligations.StepAsksPortsForFetchAndInstruction : Prop :=
  ∀ s t : State, step s = .next t →
    (¬ (s.control = .idle ∧ s.run = .running) → t.sent = s.sent) ∧
    (s.control = .idle → s.run = .running → ∃ fetch new, t.sent = new ++ fetch ++ s.sent ∧
      (fetch ≠ [] ↔ s.params.deviceAddrs.contains s.pc = true) ∧ (∀ q ∈ fetch, q = .devread s.pc) ∧
      ∀ q ∈ new, ∃ w s1, memRead s.pc { s with ctl := s.ctl.tail } = .value w s1 ∧
        match q with
        | .devread a => readsData (decode w) = true ∧ s.params.deviceAddrs.contains a = true
        | .trap r => (∃ u, decode w = .trap u r.vect) ∧ r.regs = s.regs ∧ r.pc = s.pc + 1 ∧ r.cond = s.cond ∧
            r.mem = s1.mem)
end

