-- ==== Sys2Proof/Laws/Encoding.lean ====
section
/-! SUPPORT. Each bit of an encoded word, one lemma per constructor: which field it comes from. -/

namespace Sys2Proof

theorem getLsbD_encode_addReg (dr sr1 : Reg) (u : BitVec 2) (sr2 : Reg) (k : Nat) :
    (encode (.addReg dr sr1 u sr2)).getLsbD k =
      (if k < 3 then sr2.getLsbD k else if k < 5 then u.getLsbD (k - 3) else if k < 6 then (0b0#1).getLsbD (k - 5) else if k < 9 then sr1.getLsbD (k - 6) else if k < 12 then dr.getLsbD (k - 9) else (0b0001#4).getLsbD (k - 12)) := by
  simp only [encode]
  rw [BitVec.getLsbD_append, BitVec.getLsbD_append, BitVec.getLsbD_append, BitVec.getLsbD_append, BitVec.getLsbD_append]
  simp only [Nat.sub_sub]
  split_ifs <;> first | rfl | omega

theorem getLsbD_encode_addImm (dr sr1 : Reg) (imm5 : BitVec 5) (k : Nat) :
    (encode (.addImm dr sr1 imm5)).getLsbD k =
      (if k < 5 then imm5.getLsbD k else if k < 6 then (0b1#1).getLsbD (k - 5) else if k < 9 then sr1.getLsbD (k - 6) else if k < 12 then dr.getLsbD (k - 9) else (0b0001#4).getLsbD (k - 12)) := by
  simp only [encode]
  rw [BitVec.getLsbD_append, BitVec.getLsbD_append, BitVec.getLsbD_append, BitVec.getLsbD_append]
  simp only [Nat.sub_sub]
  split_ifs <;> first | rfl | omega

theorem getLsbD_encode_andReg (dr sr1 : Reg) (u : BitVec 2) (sr2 : Reg) (k : Nat) :
    (encode (.andReg dr sr1 u sr2)).getLsbD k =
      (if k < 3 then sr2.getLsbD k else if k < 5 then u.getLsbD (k - 3) else if k < 6 then (0b0#1).getLsbD (k - 5) else if k < 9 then sr1.getLsbD (k - 6) else if k < 12 then dr.getLsbD (k - 9) else (0b0101#4).getLsbD (k - 12)) := by
  simp only [encode]
  rw [BitVec.getLsbD_append, BitVec.getLsbD_append, BitVec.getLsbD_append, BitVec.getLsbD_append, BitVec.getLsbD_append]
  simp only [Nat.sub_sub]
  split_ifs <;> first | rfl | omega

theorem getLsbD_encode_andImm (dr sr1 : Reg) (imm5 : BitVec 5) (k : Nat) :
    (encode (.andImm dr sr1 imm5)).getLsbD k =
      (if k < 5 then imm5.getLsbD k else if k < 6 then (0b1#1).getLsbD (k - 5) else if k < 9 then sr1.getLsbD (k - 6) else if k < 12 then dr.getLsbD (k - 9) else (0b0101#4).getLsbD (k - 12)) := by
  simp only [encode]
  rw [BitVec.getLsbD_append, BitVec.getLsbD_append, BitVec.getLsbD_append, BitVec.getLsbD_append]
  simp only [Nat.sub_sub]
  split_ifs <;> first | rfl | omega

theorem getLsbD_encode_not (dr sr : Reg) (u : BitVec 6) (k : Nat) :
    (encode (.not dr sr u)).getLsbD k =
      (if k < 6 then u.getLsbD k else if k < 9 then sr.getLsbD (k - 6) else if k < 12 then dr.getLsbD (k - 9) else (0b1001#4).getLsbD (k - 12)) := by
  simp only [encode]
  rw [BitVec.getLsbD_append, BitVec.getLsbD_append, BitVec.getLsbD_append]
  simp only [Nat.sub_sub]
  split_ifs <;> first | rfl | omega

theorem getLsbD_encode_br (nzp : BitVec 3) (off9 : BitVec 9) (k : Nat) :
    (encode (.br nzp off9)).getLsbD k =
      (if k < 9 then off9.getLsbD k else if k < 12 then nzp.getLsbD (k - 9) else (0b0000#4).getLsbD (k - 12)) := by
  simp only [encode]
  rw [BitVec.getLsbD_append, BitVec.getLsbD_append]
  simp only [Nat.sub_sub]
  split_ifs <;> first | rfl | omega

theorem getLsbD_encode_jmp (h : BitVec 3) (base : Reg) (l : BitVec 6) (k : Nat) :
    (encode (.jmp h base l)).getLsbD k =
      (if k < 6 then l.getLsbD k else if k < 9 then base.getLsbD (k - 6) else if k < 12 then h.getLsbD (k - 9) else (0b1100#4).getLsbD (k - 12)) := by
  simp only [encode]
  rw [BitVec.getLsbD_append, BitVec.getLsbD_append, BitVec.getLsbD_append]
  simp only [Nat.sub_sub]
  split_ifs <;> first | rfl | omega

theorem getLsbD_encode_jsr (off11 : BitVec 11) (k : Nat) :
    (encode (.jsr off11)).getLsbD k =
      (if k < 11 then off11.getLsbD k else if k < 12 then (0b1#1).getLsbD (k - 11) else (0b0100#4).getLsbD (k - 12)) := by
  simp only [encode]
  rw [BitVec.getLsbD_append, BitVec.getLsbD_append]
  simp only [Nat.sub_sub]
  split_ifs <;> first | rfl | omega

theorem getLsbD_encode_jsrr (h : BitVec 2) (base : Reg) (l : BitVec 6) (k : Nat) :
    (encode (.jsrr h base l)).getLsbD k =
      (if k < 6 then l.getLsbD k else if k < 9 then base.getLsbD (k - 6) else if k < 11 then h.getLsbD (k - 9) else if k < 12 then (0b0#1).getLsbD (k - 11) else (0b0100#4).getLsbD (k - 12)) := by
  simp only [encode]
  rw [BitVec.getLsbD_append, BitVec.getLsbD_append, BitVec.getLsbD_append, BitVec.getLsbD_append]
  simp only [Nat.sub_sub]
  split_ifs <;> first | rfl | omega

theorem getLsbD_encode_ld (dr : Reg) (off9 : BitVec 9) (k : Nat) :
    (encode (.ld dr off9)).getLsbD k =
      (if k < 9 then off9.getLsbD k else if k < 12 then dr.getLsbD (k - 9) else (0b0010#4).getLsbD (k - 12)) := by
  simp only [encode]
  rw [BitVec.getLsbD_append, BitVec.getLsbD_append]
  simp only [Nat.sub_sub]
  split_ifs <;> first | rfl | omega

theorem getLsbD_encode_ldr (dr base : Reg) (off6 : BitVec 6) (k : Nat) :
    (encode (.ldr dr base off6)).getLsbD k =
      (if k < 6 then off6.getLsbD k else if k < 9 then base.getLsbD (k - 6) else if k < 12 then dr.getLsbD (k - 9) else (0b0110#4).getLsbD (k - 12)) := by
  simp only [encode]
  rw [BitVec.getLsbD_append, BitVec.getLsbD_append, BitVec.getLsbD_append]
  simp only [Nat.sub_sub]
  split_ifs <;> first | rfl | omega

theorem getLsbD_encode_ldi (dr : Reg) (off9 : BitVec 9) (k : Nat) :
    (encode (.ldi dr off9)).getLsbD k =
      (if k < 9 then off9.getLsbD k else if k < 12 then dr.getLsbD (k - 9) else (0b1010#4).getLsbD (k - 12)) := by
  simp only [encode]
  rw [BitVec.getLsbD_append, BitVec.getLsbD_append]
  simp only [Nat.sub_sub]
  split_ifs <;> first | rfl | omega

theorem getLsbD_encode_lea (dr : Reg) (off9 : BitVec 9) (k : Nat) :
    (encode (.lea dr off9)).getLsbD k =
      (if k < 9 then off9.getLsbD k else if k < 12 then dr.getLsbD (k - 9) else (0b1110#4).getLsbD (k - 12)) := by
  simp only [encode]
  rw [BitVec.getLsbD_append, BitVec.getLsbD_append]
  simp only [Nat.sub_sub]
  split_ifs <;> first | rfl | omega

theorem getLsbD_encode_st (sr : Reg) (off9 : BitVec 9) (k : Nat) :
    (encode (.st sr off9)).getLsbD k =
      (if k < 9 then off9.getLsbD k else if k < 12 then sr.getLsbD (k - 9) else (0b0011#4).getLsbD (k - 12)) := by
  simp only [encode]
  rw [BitVec.getLsbD_append, BitVec.getLsbD_append]
  simp only [Nat.sub_sub]
  split_ifs <;> first | rfl | omega

theorem getLsbD_encode_str (sr base : Reg) (off6 : BitVec 6) (k : Nat) :
    (encode (.str sr base off6)).getLsbD k =
      (if k < 6 then off6.getLsbD k else if k < 9 then base.getLsbD (k - 6) else if k < 12 then sr.getLsbD (k - 9) else (0b0111#4).getLsbD (k - 12)) := by
  simp only [encode]
  rw [BitVec.getLsbD_append, BitVec.getLsbD_append, BitVec.getLsbD_append]
  simp only [Nat.sub_sub]
  split_ifs <;> first | rfl | omega

theorem getLsbD_encode_sti (sr : Reg) (off9 : BitVec 9) (k : Nat) :
    (encode (.sti sr off9)).getLsbD k =
      (if k < 9 then off9.getLsbD k else if k < 12 then sr.getLsbD (k - 9) else (0b1011#4).getLsbD (k - 12)) := by
  simp only [encode]
  rw [BitVec.getLsbD_append, BitVec.getLsbD_append]
  simp only [Nat.sub_sub]
  split_ifs <;> first | rfl | omega

theorem getLsbD_encode_trap (u : BitVec 4) (vect : BitVec 8) (k : Nat) :
    (encode (.trap u vect)).getLsbD k =
      (if k < 8 then vect.getLsbD k else if k < 12 then u.getLsbD (k - 8) else (0b1111#4).getLsbD (k - 12)) := by
  simp only [encode]
  rw [BitVec.getLsbD_append, BitVec.getLsbD_append]
  simp only [Nat.sub_sub]
  split_ifs <;> first | rfl | omega

theorem getLsbD_encode_rti (x : BitVec 12) (k : Nat) :
    (encode (.rti x)).getLsbD k =
      (if k < 12 then x.getLsbD k else (0b1000#4).getLsbD (k - 12)) := by
  simp only [encode]
  rw [BitVec.getLsbD_append]

theorem getLsbD_encode_reserved13 (x : BitVec 12) (k : Nat) :
    (encode (.reserved13 x)).getLsbD k =
      (if k < 12 then x.getLsbD k else (0b1101#4).getLsbD (k - 12)) := by
  simp only [encode]
  rw [BitVec.getLsbD_append]

/-- The opcode field's bits, from the opcode (R65). -/
theorem getLsbD_opcodeOf (w : Word) (k : Nat) (h1 : 12 ≤ k) (h2 : k < 16) :
    w.getLsbD k = (match opcodeOf w with
      | .br => 0b0000#4 | .add => 0b0001#4 | .ld => 0b0010#4 | .st => 0b0011#4
      | .jsr => 0b0100#4 | .and => 0b0101#4 | .ldr => 0b0110#4 | .str => 0b0111#4
      | .rti => 0b1000#4 | .not => 0b1001#4 | .ldi => 0b1010#4 | .sti => 0b1011#4
      | .jmp => 0b1100#4 | .reserved => 0b1101#4 | .lea => 0b1110#4 | .trap => 0b1111#4).getLsbD (k - 12) := by
  rcases h15 : w.getLsbD 15 <;> rcases h14 : w.getLsbD 14 <;> rcases h13 : w.getLsbD 13 <;>
    rcases h12 : w.getLsbD 12 <;>
    (simp only [opcodeOf, h15, h14, h13, h12]; interval_cases k <;> simp only [h15, h14, h13, h12] <;> rfl)

/-- A bit of an extracted field is the word's bit at its place. -/
theorem getLsbD_field (w : Word) (a n k : Nat) (h1 : a ≤ k) (h2 : k < a + n) :
    (w.extractLsb' a n).getLsbD (k - a) = w.getLsbD k := by
  rw [BitVec.getLsbD_extractLsb', show a + (k - a) = k by omega]
  simp only [Bool.and_eq_right_iff_imp, decide_eq_true_eq]
  omega

theorem getLsbD_field_low (w : Word) (n k : Nat) (h : k < n) : (w.extractLsb' 0 n).getLsbD k = w.getLsbD k :=
  getLsbD_field w 0 n k (Nat.zero_le k) (by omega)

end Sys2Proof
end

