-- ==== Sys2Proof/Laws/Memory.lean ====
section
/-! SUPPORT. The memory array: every operation keeps the canonical form, a read after a write, and a canonical
memory is fixed by what its cells read as. -/

namespace Sys2Proof.Machine

theorem Memory.wfFrom_cons {lo k : Nat} {v : Byte} {rest : Memory} :
    Memory.wfFrom lo ((k, v) :: rest) = true ↔
      lo ≤ k ∧ k < 131072 ∧ v ≠ 0 ∧ Memory.wfFrom (k + 1) rest = true := by
  simp [Memory.wfFrom, and_assoc]

theorem Memory.wfFrom_mono {lo lo' : Nat} {m : Memory} (h : Memory.wfFrom lo m = true) (hl : lo' ≤ lo) :
    Memory.wfFrom lo' m = true := by
  cases m with
  | nil => rfl
  | cons kv rest =>
    rw [Memory.wfFrom_cons] at h ⊢
    exact ⟨hl.trans h.1, h.2⟩

/-- Below the form's lower end every byte reads as 0. -/
theorem Memory.readByte_below {lo a : Nat} {m : Memory} (h : Memory.wfFrom lo m = true) (ha : a < lo) :
    Memory.readByte m a = 0 := by
  cases m with
  | nil => rfl
  | cons kv rest =>
    have := (Memory.wfFrom_cons.mp h).1
    simp only [Memory.readByte]
    rw [if_pos (by omega)]

/-- Storing a byte keeps the canonical form. -/
theorem Memory.wfFrom_writeByte {lo a : Nat} {b : Byte} {m : Memory} (h : Memory.wfFrom lo m = true)
    (hlo : lo ≤ a) (ha : a < 131072) : Memory.wfFrom lo (Memory.writeByte m a b) = true := by
  induction m generalizing lo with
  | nil =>
    simp only [Memory.writeByte]
    split
    · rfl
    · rename_i hb
      exact Memory.wfFrom_cons.mpr ⟨hlo, ha, hb, rfl⟩
  | cons kv rest ih =>
    obtain ⟨k, v⟩ := kv
    obtain ⟨h1, h2, h3, h4⟩ := Memory.wfFrom_cons.mp h
    simp only [Memory.writeByte]
    split
    · split
      · exact h
      · rename_i hak hb
        exact Memory.wfFrom_cons.mpr ⟨hlo, ha, hb, Memory.wfFrom_cons.mpr ⟨hak, h2, h3, h4⟩⟩
    · split
      · split
        · exact Memory.wfFrom_mono h4 (by omega)
        · rename_i hk hb
          subst hk
          exact Memory.wfFrom_cons.mpr ⟨hlo, ha, hb, h4⟩
      · exact Memory.wfFrom_cons.mpr ⟨h1, h2, h3, ih h4 (by omega)⟩

/-- A byte reads as stored, and every other byte as before. -/
theorem Memory.readByte_writeByte {lo : Nat} {m : Memory} (h : Memory.wfFrom lo m = true) (a : Nat) (b : Byte)
    (a' : Nat) : Memory.readByte (Memory.writeByte m a b) a' = if a' = a then b else Memory.readByte m a' := by
  induction m generalizing lo with
  | nil =>
    by_cases hb : b = 0
    · subst hb
      simp [Memory.writeByte, Memory.readByte]
    · simp only [Memory.writeByte, if_neg hb, Memory.readByte]
      split_ifs <;> first | rfl | omega
  | cons kv rest ih =>
    obtain ⟨k, v⟩ := kv
    obtain ⟨-, -, -, h4⟩ := Memory.wfFrom_cons.mp h
    have hbelow : ∀ x, x ≤ k → Memory.readByte rest x = 0 := fun x hx => Memory.readByte_below h4 (by omega)
    have ih := ih h4
    by_cases hak : a < k
    · by_cases hb : b = 0
      · simp only [Memory.writeByte, if_pos hak, if_pos hb, Memory.readByte]
        split_ifs <;> first | rfl | omega | exact hb.symm
      · simp only [Memory.writeByte, if_pos hak, if_neg hb, Memory.readByte]
        split_ifs <;> first | rfl | omega
    · by_cases he : a = k
      · subst he
        by_cases hb : b = 0
        · subst hb
          simp only [Memory.writeByte, lt_irrefl, if_true, if_false, Memory.readByte]
          split_ifs <;> first | rfl | omega | exact hbelow _ (by omega)
        · simp only [Memory.writeByte, lt_irrefl, if_true, if_false, if_neg hb, Memory.readByte]
          split_ifs <;> first | rfl | omega
      · simp only [Memory.writeByte, if_neg hak, if_neg he, Memory.readByte, ih]
        split_ifs <;> first | rfl | omega

theorem Memory.wf_write {m : Memory} (h : Memory.wf m = true) (a v : Word) :
    Memory.wf (Memory.write m a v) = true := by
  have ha := a.isLt
  exact Memory.wfFrom_writeByte (Memory.wfFrom_writeByte h (Nat.zero_le _) (by omega)) (Nat.zero_le _) (by omega)

/-- A cell reads as written, and every other cell as before (R47, R50). -/
theorem Memory.read_write {m : Memory} (h : Memory.wf m = true) (a v b : Word) :
    Memory.read (Memory.write m a v) b = if b = a then v else Memory.read m b := by
  have ha := a.isLt
  have h1 : Memory.wfFrom 0 (Memory.writeByte m (2 * a.toNat) (v.extractLsb' 0 8)) = true :=
    Memory.wfFrom_writeByte h (Nat.zero_le _) (by omega)
  unfold Memory.read Memory.write
  rw [Memory.readByte_writeByte h1, Memory.readByte_writeByte h, Memory.readByte_writeByte h1,
    Memory.readByte_writeByte h]
  by_cases hb : b = a
  · subst hb
    rw [if_pos rfl, if_neg (by omega), if_pos rfl, if_pos rfl]
    ext i hi
    simp only [BitVec.getElem_append, BitVec.getElem_extractLsb']
    split_ifs with hlt
    · rw [BitVec.getLsbD_eq_getElem (by omega)]; congr 1; omega
    · rw [BitVec.getLsbD_eq_getElem (by omega)]; congr 1; omega
  · have hne : b.toNat ≠ a.toNat := fun e => hb (BitVec.eq_of_toNat_eq e)
    rw [if_neg (by omega), if_neg (by omega), if_neg (by omega), if_neg (by omega), if_neg hb]

/-- With nothing listed every cell is 0 (R33). -/
@[simp] theorem Memory.read_nil (a : Word) : Memory.read [] a = 0 := by
  simp [Memory.read, Memory.readByte]

theorem Memory.wf_writeAll {m : Memory} (h : Memory.wf m = true) (ws : List (Word × Word)) :
    Memory.wf (Memory.writeAll m ws) = true := by
  induction ws generalizing m with
  | nil => exact h
  | cons p ws ih => exact ih (Memory.wf_write h p.1 p.2)

theorem Memory.wf_ofImage (image : List (Word × Word)) : Memory.wf (Memory.ofImage image) = true :=
  Memory.wf_writeAll rfl image

/-- A cell that no listed write names keeps its word. -/
theorem Memory.read_writeAll_other {m : Memory} (h : Memory.wf m = true) {ws : List (Word × Word)} {b : Word}
    (hb : ∀ p ∈ ws, p.1 ≠ b) : Memory.read (Memory.writeAll m ws) b = Memory.read m b := by
  induction ws generalizing m with
  | nil => rfl
  | cons p ws ih =>
    have hp : b ≠ p.1 := fun e => hb p (List.mem_cons_self) e.symm
    have : Memory.writeAll m (p :: ws) = Memory.writeAll (Memory.write m p.1 p.2) ws := rfl
    rw [this, ih (Memory.wf_write h _ _) fun q hq => hb q (List.mem_cons_of_mem _ hq), Memory.read_write h, if_neg hp]

theorem Memory.readByte_ext {lo : Nat} {m m' : Memory} (h : Memory.wfFrom lo m = true)
    (h' : Memory.wfFrom lo m' = true)
    (heq : ∀ a, Memory.readByte m a = Memory.readByte m' a) : m = m' := by
  induction m generalizing lo m' with
  | nil =>
    cases m' with
    | nil => rfl
    | cons kv rest =>
      obtain ⟨k, v⟩ := kv
      obtain ⟨-, -, h3, -⟩ := Memory.wfFrom_cons.mp h'
      have := heq k
      simp [Memory.readByte] at this
      exact absurd this.symm h3
  | cons kv rest ih =>
    obtain ⟨k, v⟩ := kv
    obtain ⟨h1, h2, h3, h4⟩ := Memory.wfFrom_cons.mp h
    cases m' with
    | nil =>
      have := heq k
      simp [Memory.readByte] at this
      exact absurd this h3
    | cons kv' rest' =>
      obtain ⟨k', v'⟩ := kv'
      obtain ⟨h1', h2', h3', h4'⟩ := Memory.wfFrom_cons.mp h'
      have e1 := heq k
      have e2 := heq k'
      simp only [Memory.readByte] at e1 e2
      have hk : k = k' := by
        rcases Nat.lt_trichotomy k k' with hlt | heq' | hgt
        · simp [hlt] at e1; exact absurd e1 h3
        · exact heq'
        · simp [hgt] at e2; exact absurd e2.symm h3'
      subst hk
      simp only [Nat.lt_irrefl, if_false, if_true] at e1
      subst e1
      congr 1
      refine ih h4 h4' fun a => ?_
      rcases Nat.lt_or_ge k a with hka | hka
      · have := heq a
        simp only [Memory.readByte] at this
        rwa [if_neg (by omega), if_neg (by omega), if_neg (by omega), if_neg (by omega)] at this
      · rw [Memory.readByte_below h4 (by omega), Memory.readByte_below h4' (by omega)]

theorem Memory.readByte_above {lo a : Nat} {m : Memory} (h : Memory.wfFrom lo m = true) (ha : 131072 ≤ a) :
    Memory.readByte m a = 0 := by
  induction m generalizing lo with
  | nil => rfl
  | cons kv rest ih =>
    obtain ⟨k, v⟩ := kv
    obtain ⟨-, h2, -, h4⟩ := Memory.wfFrom_cons.mp h
    simp only [Memory.readByte]
    rw [if_neg (by omega), if_neg (by omega), ih h4]

theorem Memory.append_inj {x y x' y' : Byte} (h : x ++ y = x' ++ y') : x = x' ∧ y = y' := by
  have hx := congrArg (BitVec.extractLsb' 8 8) h
  have hy := congrArg (BitVec.extractLsb' 0 8) h
  rw [BitVec.extractLsb'_append_eq_left, BitVec.extractLsb'_append_eq_left] at hx
  rw [BitVec.extractLsb'_append_eq_right, BitVec.extractLsb'_append_eq_right] at hy
  exact ⟨hx, hy⟩

/-- The storage is canonical: two well-formed memories whose 65536 cells read alike are the same list. -/
theorem Memory.ext_read {m m' : Memory} (h : Memory.wf m = true) (h' : Memory.wf m' = true)
    (heq : ∀ a : Word, Memory.read m a = Memory.read m' a) : m = m' := by
  refine Memory.readByte_ext h h' fun a => ?_
  rcases Nat.lt_or_ge a 131072 with ha | ha
  · have hr := heq (BitVec.ofNat 16 (a / 2))
    have ht : (BitVec.ofNat 16 (a / 2)).toNat = a / 2 := by simp; omega
    unfold Memory.read at hr
    rw [ht] at hr
    obtain ⟨hhi, hlo⟩ := Memory.append_inj hr
    rcases Nat.mod_two_eq_zero_or_one a with hm | hm
    · rwa [show 2 * (a / 2) = a by omega] at hlo
    · rwa [show 2 * (a / 2) + 1 = a by omega] at hhi
  · rw [Memory.readByte_above h ha, Memory.readByte_above h' ha]

end Sys2Proof.Machine
end

