-- ==== Sys2Proof/Laws/PerInstr.lean ====
section
/-! SUPPORT. Per-instruction laws: the encoded word fits the match and mask of its row of spec/opcode_table.json. -/

namespace Sys2Proof.Laws.TableRow

/-- The word of the instruction, under its row's mask, is the row's match (R62, R68). -/
def Statement (i : Instr) : Prop := encode i &&& i.tableRow.1 = i.tableRow.2

theorem addReg (dr sr1 : Reg) (u : BitVec 2) (sr2 : Reg) : Statement (.addReg dr sr1 u sr2) := by
  apply BitVec.eq_of_getLsbD_eq
  intro k hk
  rw [BitVec.getLsbD_and, getLsbD_encode_addReg]
  interval_cases k <;> simp [Instr.tableRow]

theorem addImm (dr sr1 : Reg) (imm5 : BitVec 5) : Statement (.addImm dr sr1 imm5) := by
  apply BitVec.eq_of_getLsbD_eq
  intro k hk
  rw [BitVec.getLsbD_and, getLsbD_encode_addImm]
  interval_cases k <;> simp [Instr.tableRow]

theorem andReg (dr sr1 : Reg) (u : BitVec 2) (sr2 : Reg) : Statement (.andReg dr sr1 u sr2) := by
  apply BitVec.eq_of_getLsbD_eq
  intro k hk
  rw [BitVec.getLsbD_and, getLsbD_encode_andReg]
  interval_cases k <;> simp [Instr.tableRow]

theorem andImm (dr sr1 : Reg) (imm5 : BitVec 5) : Statement (.andImm dr sr1 imm5) := by
  apply BitVec.eq_of_getLsbD_eq
  intro k hk
  rw [BitVec.getLsbD_and, getLsbD_encode_andImm]
  interval_cases k <;> simp [Instr.tableRow]

theorem not (dr sr : Reg) (u : BitVec 6) : Statement (.not dr sr u) := by
  apply BitVec.eq_of_getLsbD_eq
  intro k hk
  rw [BitVec.getLsbD_and, getLsbD_encode_not]
  interval_cases k <;> simp [Instr.tableRow]

theorem br (nzp : BitVec 3) (off9 : BitVec 9) : Statement (.br nzp off9) := by
  apply BitVec.eq_of_getLsbD_eq
  intro k hk
  rw [BitVec.getLsbD_and, getLsbD_encode_br]
  interval_cases k <;> simp [Instr.tableRow]

theorem jmp (h : BitVec 3) (base : Reg) (l : BitVec 6) : Statement (.jmp h base l) := by
  apply BitVec.eq_of_getLsbD_eq
  intro k hk
  rw [BitVec.getLsbD_and, getLsbD_encode_jmp]
  interval_cases k <;> simp [Instr.tableRow]

theorem jsr (off11 : BitVec 11) : Statement (.jsr off11) := by
  apply BitVec.eq_of_getLsbD_eq
  intro k hk
  rw [BitVec.getLsbD_and, getLsbD_encode_jsr]
  interval_cases k <;> simp [Instr.tableRow]

theorem jsrr (h : BitVec 2) (base : Reg) (l : BitVec 6) : Statement (.jsrr h base l) := by
  apply BitVec.eq_of_getLsbD_eq
  intro k hk
  rw [BitVec.getLsbD_and, getLsbD_encode_jsrr]
  interval_cases k <;> simp [Instr.tableRow]

theorem ld (dr : Reg) (off9 : BitVec 9) : Statement (.ld dr off9) := by
  apply BitVec.eq_of_getLsbD_eq
  intro k hk
  rw [BitVec.getLsbD_and, getLsbD_encode_ld]
  interval_cases k <;> simp [Instr.tableRow]

theorem ldr (dr base : Reg) (off6 : BitVec 6) : Statement (.ldr dr base off6) := by
  apply BitVec.eq_of_getLsbD_eq
  intro k hk
  rw [BitVec.getLsbD_and, getLsbD_encode_ldr]
  interval_cases k <;> simp [Instr.tableRow]

theorem ldi (dr : Reg) (off9 : BitVec 9) : Statement (.ldi dr off9) := by
  apply BitVec.eq_of_getLsbD_eq
  intro k hk
  rw [BitVec.getLsbD_and, getLsbD_encode_ldi]
  interval_cases k <;> simp [Instr.tableRow]

theorem lea (dr : Reg) (off9 : BitVec 9) : Statement (.lea dr off9) := by
  apply BitVec.eq_of_getLsbD_eq
  intro k hk
  rw [BitVec.getLsbD_and, getLsbD_encode_lea]
  interval_cases k <;> simp [Instr.tableRow]

theorem st (sr : Reg) (off9 : BitVec 9) : Statement (.st sr off9) := by
  apply BitVec.eq_of_getLsbD_eq
  intro k hk
  rw [BitVec.getLsbD_and, getLsbD_encode_st]
  interval_cases k <;> simp [Instr.tableRow]

theorem str (sr base : Reg) (off6 : BitVec 6) : Statement (.str sr base off6) := by
  apply BitVec.eq_of_getLsbD_eq
  intro k hk
  rw [BitVec.getLsbD_and, getLsbD_encode_str]
  interval_cases k <;> simp [Instr.tableRow]

theorem sti (sr : Reg) (off9 : BitVec 9) : Statement (.sti sr off9) := by
  apply BitVec.eq_of_getLsbD_eq
  intro k hk
  rw [BitVec.getLsbD_and, getLsbD_encode_sti]
  interval_cases k <;> simp [Instr.tableRow]

theorem trap (u : BitVec 4) (vect : BitVec 8) : Statement (.trap u vect) := by
  apply BitVec.eq_of_getLsbD_eq
  intro k hk
  rw [BitVec.getLsbD_and, getLsbD_encode_trap]
  interval_cases k <;> simp [Instr.tableRow]

theorem rti (x : BitVec 12) : Statement (.rti x) := by
  apply BitVec.eq_of_getLsbD_eq
  intro k hk
  rw [BitVec.getLsbD_and, getLsbD_encode_rti]
  interval_cases k <;> simp [Instr.tableRow]

theorem reserved13 (x : BitVec 12) : Statement (.reserved13 x) := by
  apply BitVec.eq_of_getLsbD_eq
  intro k hk
  rw [BitVec.getLsbD_and, getLsbD_encode_reserved13]
  interval_cases k <;> simp [Instr.tableRow]

end Sys2Proof.Laws.TableRow
end

