-- ==== Sys2Proof/Laws/State.lean ====
section
/-! SUPPORT. One lemma per field per update of State, so that no later proof unfolds a record update. -/

namespace Sys2Proof.Machine

@[simp] theorem State.regs_setReg (s : State) (r : Reg) (v : Word) : (s.setReg r v).regs = s.regs.set r.toNat v r.isLt := rfl
@[simp] theorem State.pc_setReg (s : State) (r : Reg) (v : Word) : (s.setReg r v).pc = s.pc := rfl
@[simp] theorem State.cond_setReg (s : State) (r : Reg) (v : Word) : (s.setReg r v).cond = s.cond := rfl
@[simp] theorem State.run_setReg (s : State) (r : Reg) (v : Word) : (s.setReg r v).run = s.run := rfl
@[simp] theorem State.ir_setReg (s : State) (r : Reg) (v : Word) : (s.setReg r v).ir = s.ir := rfl
@[simp] theorem State.mem_setReg (s : State) (r : Reg) (v : Word) : (s.setReg r v).mem = s.mem := rfl
@[simp] theorem State.params_setReg (s : State) (r : Reg) (v : Word) : (s.setReg r v).params = s.params := rfl
@[simp] theorem State.ctl_setReg (s : State) (r : Reg) (v : Word) : (s.setReg r v).ctl = s.ctl := rfl
@[simp] theorem State.devIn_setReg (s : State) (r : Reg) (v : Word) : (s.setReg r v).devIn = s.devIn := rfl
@[simp] theorem State.trapIn_setReg (s : State) (r : Reg) (v : Word) : (s.setReg r v).trapIn = s.trapIn := rfl
@[simp] theorem State.sent_setReg (s : State) (r : Reg) (v : Word) : (s.setReg r v).sent = s.sent := rfl

@[simp] theorem State.regs_setPc (s : State) (p : Word) : (s.setPc p).regs = s.regs := rfl
@[simp] theorem State.pc_setPc (s : State) (p : Word) : (s.setPc p).pc = p := rfl
@[simp] theorem State.cond_setPc (s : State) (p : Word) : (s.setPc p).cond = s.cond := rfl
@[simp] theorem State.run_setPc (s : State) (p : Word) : (s.setPc p).run = s.run := rfl
@[simp] theorem State.ir_setPc (s : State) (p : Word) : (s.setPc p).ir = s.ir := rfl
@[simp] theorem State.mem_setPc (s : State) (p : Word) : (s.setPc p).mem = s.mem := rfl
@[simp] theorem State.params_setPc (s : State) (p : Word) : (s.setPc p).params = s.params := rfl
@[simp] theorem State.ctl_setPc (s : State) (p : Word) : (s.setPc p).ctl = s.ctl := rfl
@[simp] theorem State.devIn_setPc (s : State) (p : Word) : (s.setPc p).devIn = s.devIn := rfl
@[simp] theorem State.trapIn_setPc (s : State) (p : Word) : (s.setPc p).trapIn = s.trapIn := rfl
@[simp] theorem State.sent_setPc (s : State) (p : Word) : (s.setPc p).sent = s.sent := rfl
@[simp] theorem State.reg_setPc (s : State) (p : Word) (r' : Reg) : (s.setPc p).reg r' = s.reg r' := rfl

@[simp] theorem State.regs_setCond (s : State) (f : BitVec 3) : (s.setCond f).regs = s.regs := rfl
@[simp] theorem State.pc_setCond (s : State) (f : BitVec 3) : (s.setCond f).pc = s.pc := rfl
@[simp] theorem State.cond_setCond (s : State) (f : BitVec 3) : (s.setCond f).cond = f := rfl
@[simp] theorem State.run_setCond (s : State) (f : BitVec 3) : (s.setCond f).run = s.run := rfl
@[simp] theorem State.ir_setCond (s : State) (f : BitVec 3) : (s.setCond f).ir = s.ir := rfl
@[simp] theorem State.mem_setCond (s : State) (f : BitVec 3) : (s.setCond f).mem = s.mem := rfl
@[simp] theorem State.params_setCond (s : State) (f : BitVec 3) : (s.setCond f).params = s.params := rfl
@[simp] theorem State.ctl_setCond (s : State) (f : BitVec 3) : (s.setCond f).ctl = s.ctl := rfl
@[simp] theorem State.devIn_setCond (s : State) (f : BitVec 3) : (s.setCond f).devIn = s.devIn := rfl
@[simp] theorem State.trapIn_setCond (s : State) (f : BitVec 3) : (s.setCond f).trapIn = s.trapIn := rfl
@[simp] theorem State.sent_setCond (s : State) (f : BitVec 3) : (s.setCond f).sent = s.sent := rfl
@[simp] theorem State.reg_setCond (s : State) (f : BitVec 3) (r' : Reg) : (s.setCond f).reg r' = s.reg r' := rfl

@[simp] theorem State.regs_setcc (s : State) (v : Word) : (s.setcc v).regs = s.regs := rfl
@[simp] theorem State.pc_setcc (s : State) (v : Word) : (s.setcc v).pc = s.pc := rfl
@[simp] theorem State.cond_setcc (s : State) (v : Word) : (s.setcc v).cond = flagBits (flagOf v) := rfl
@[simp] theorem State.run_setcc (s : State) (v : Word) : (s.setcc v).run = s.run := rfl
@[simp] theorem State.ir_setcc (s : State) (v : Word) : (s.setcc v).ir = s.ir := rfl
@[simp] theorem State.mem_setcc (s : State) (v : Word) : (s.setcc v).mem = s.mem := rfl
@[simp] theorem State.params_setcc (s : State) (v : Word) : (s.setcc v).params = s.params := rfl
@[simp] theorem State.ctl_setcc (s : State) (v : Word) : (s.setcc v).ctl = s.ctl := rfl
@[simp] theorem State.devIn_setcc (s : State) (v : Word) : (s.setcc v).devIn = s.devIn := rfl
@[simp] theorem State.trapIn_setcc (s : State) (v : Word) : (s.setcc v).trapIn = s.trapIn := rfl
@[simp] theorem State.sent_setcc (s : State) (v : Word) : (s.setcc v).sent = s.sent := rfl
@[simp] theorem State.reg_setcc (s : State) (v : Word) (r' : Reg) : (s.setcc v).reg r' = s.reg r' := rfl

@[simp] theorem State.regs_memWrite (s : State) (a v : Word) : (s.memWrite a v).regs = s.regs := rfl
@[simp] theorem State.pc_memWrite (s : State) (a v : Word) : (s.memWrite a v).pc = s.pc := rfl
@[simp] theorem State.cond_memWrite (s : State) (a v : Word) : (s.memWrite a v).cond = s.cond := rfl
@[simp] theorem State.run_memWrite (s : State) (a v : Word) : (s.memWrite a v).run = s.run := rfl
@[simp] theorem State.ir_memWrite (s : State) (a v : Word) : (s.memWrite a v).ir = s.ir := rfl
@[simp] theorem State.mem_memWrite (s : State) (a v : Word) : (s.memWrite a v).mem = Memory.write s.mem a v := rfl
@[simp] theorem State.params_memWrite (s : State) (a v : Word) : (s.memWrite a v).params = s.params := rfl
@[simp] theorem State.ctl_memWrite (s : State) (a v : Word) : (s.memWrite a v).ctl = s.ctl := rfl
@[simp] theorem State.devIn_memWrite (s : State) (a v : Word) : (s.memWrite a v).devIn = s.devIn := rfl
@[simp] theorem State.trapIn_memWrite (s : State) (a v : Word) : (s.memWrite a v).trapIn = s.trapIn := rfl
@[simp] theorem State.sent_memWrite (s : State) (a v : Word) : (s.memWrite a v).sent = s.sent := rfl
@[simp] theorem State.reg_memWrite (s : State) (a v : Word) (r' : Reg) : (s.memWrite a v).reg r' = s.reg r' := rfl

@[simp] theorem State.regs_enterFaulted (s : State) (rec : FaultRecord) : (s.enterFaulted rec).regs = s.regs := rfl
@[simp] theorem State.pc_enterFaulted (s : State) (rec : FaultRecord) : (s.enterFaulted rec).pc = s.pc := rfl
@[simp] theorem State.cond_enterFaulted (s : State) (rec : FaultRecord) : (s.enterFaulted rec).cond = s.cond := rfl
@[simp] theorem State.run_enterFaulted (s : State) (rec : FaultRecord) : (s.enterFaulted rec).run = .faulted rec := rfl
@[simp] theorem State.ir_enterFaulted (s : State) (rec : FaultRecord) : (s.enterFaulted rec).ir = s.ir := rfl
@[simp] theorem State.mem_enterFaulted (s : State) (rec : FaultRecord) : (s.enterFaulted rec).mem = s.mem := rfl
@[simp] theorem State.params_enterFaulted (s : State) (rec : FaultRecord) : (s.enterFaulted rec).params = s.params := rfl
@[simp] theorem State.ctl_enterFaulted (s : State) (rec : FaultRecord) : (s.enterFaulted rec).ctl = s.ctl := rfl
@[simp] theorem State.devIn_enterFaulted (s : State) (rec : FaultRecord) : (s.enterFaulted rec).devIn = s.devIn := rfl
@[simp] theorem State.trapIn_enterFaulted (s : State) (rec : FaultRecord) : (s.enterFaulted rec).trapIn = s.trapIn := rfl
@[simp] theorem State.sent_enterFaulted (s : State) (rec : FaultRecord) : (s.enterFaulted rec).sent = s.sent := rfl
@[simp] theorem State.reg_enterFaulted (s : State) (rec : FaultRecord) (r' : Reg) : (s.enterFaulted rec).reg r' = s.reg r' := rfl

@[simp] theorem State.regs_raise (s : State) (c : FaultCause) : (s.raise c).regs = s.regs := rfl
@[simp] theorem State.pc_raise (s : State) (c : FaultCause) : (s.raise c).pc = s.pc := rfl
@[simp] theorem State.cond_raise (s : State) (c : FaultCause) : (s.raise c).cond = s.cond := rfl
@[simp] theorem State.run_raise (s : State) (c : FaultCause) : (s.raise c).run = .faulted ⟨c, s.ir, s.pc - 1⟩ := rfl
@[simp] theorem State.ir_raise (s : State) (c : FaultCause) : (s.raise c).ir = s.ir := rfl
@[simp] theorem State.mem_raise (s : State) (c : FaultCause) : (s.raise c).mem = s.mem := rfl
@[simp] theorem State.params_raise (s : State) (c : FaultCause) : (s.raise c).params = s.params := rfl
@[simp] theorem State.ctl_raise (s : State) (c : FaultCause) : (s.raise c).ctl = s.ctl := rfl
@[simp] theorem State.devIn_raise (s : State) (c : FaultCause) : (s.raise c).devIn = s.devIn := rfl
@[simp] theorem State.trapIn_raise (s : State) (c : FaultCause) : (s.raise c).trapIn = s.trapIn := rfl
@[simp] theorem State.sent_raise (s : State) (c : FaultCause) : (s.raise c).sent = s.sent := rfl
@[simp] theorem State.reg_raise (s : State) (c : FaultCause) (r' : Reg) : (s.raise c).reg r' = s.reg r' := rfl

@[simp] theorem State.regs_raiseOnFetch (s : State) : s.raiseOnFetch.regs = s.regs := rfl
@[simp] theorem State.pc_raiseOnFetch (s : State) : s.raiseOnFetch.pc = s.pc := rfl
@[simp] theorem State.cond_raiseOnFetch (s : State) : s.raiseOnFetch.cond = s.cond := rfl
@[simp] theorem State.run_raiseOnFetch (s : State) : s.raiseOnFetch.run = .faulted ⟨.deviceError, 0, s.pc⟩ := rfl
@[simp] theorem State.ir_raiseOnFetch (s : State) : s.raiseOnFetch.ir = s.ir := rfl
@[simp] theorem State.mem_raiseOnFetch (s : State) : s.raiseOnFetch.mem = s.mem := rfl
@[simp] theorem State.params_raiseOnFetch (s : State) : s.raiseOnFetch.params = s.params := rfl
@[simp] theorem State.ctl_raiseOnFetch (s : State) : s.raiseOnFetch.ctl = s.ctl := rfl
@[simp] theorem State.devIn_raiseOnFetch (s : State) : s.raiseOnFetch.devIn = s.devIn := rfl
@[simp] theorem State.trapIn_raiseOnFetch (s : State) : s.raiseOnFetch.trapIn = s.trapIn := rfl
@[simp] theorem State.sent_raiseOnFetch (s : State) : s.raiseOnFetch.sent = s.sent := rfl
@[simp] theorem State.reg_raiseOnFetch (s : State) (r' : Reg) : s.raiseOnFetch.reg r' = s.reg r' := rfl

@[simp] theorem State.regs_fetched (s : State) (w : Word) : (s.fetched w).regs = s.regs := rfl
@[simp] theorem State.pc_fetched (s : State) (w : Word) : (s.fetched w).pc = s.pc + 1 := rfl
@[simp] theorem State.cond_fetched (s : State) (w : Word) : (s.fetched w).cond = s.cond := rfl
@[simp] theorem State.run_fetched (s : State) (w : Word) : (s.fetched w).run = s.run := rfl
@[simp] theorem State.ir_fetched (s : State) (w : Word) : (s.fetched w).ir = w := rfl
@[simp] theorem State.mem_fetched (s : State) (w : Word) : (s.fetched w).mem = s.mem := rfl
@[simp] theorem State.params_fetched (s : State) (w : Word) : (s.fetched w).params = s.params := rfl
@[simp] theorem State.ctl_fetched (s : State) (w : Word) : (s.fetched w).ctl = s.ctl := rfl
@[simp] theorem State.devIn_fetched (s : State) (w : Word) : (s.fetched w).devIn = s.devIn := rfl
@[simp] theorem State.trapIn_fetched (s : State) (w : Word) : (s.fetched w).trapIn = s.trapIn := rfl
@[simp] theorem State.sent_fetched (s : State) (w : Word) : (s.fetched w).sent = s.sent := rfl
@[simp] theorem State.reg_fetched (s : State) (w : Word) (r' : Reg) : (s.fetched w).reg r' = s.reg r' := rfl

@[simp] theorem State.regs_popControl (s : State) : s.popControl.regs = s.regs := rfl
@[simp] theorem State.pc_popControl (s : State) : s.popControl.pc = s.pc := rfl
@[simp] theorem State.cond_popControl (s : State) : s.popControl.cond = s.cond := rfl
@[simp] theorem State.run_popControl (s : State) : s.popControl.run = s.run := rfl
@[simp] theorem State.ir_popControl (s : State) : s.popControl.ir = s.ir := rfl
@[simp] theorem State.mem_popControl (s : State) : s.popControl.mem = s.mem := rfl
@[simp] theorem State.params_popControl (s : State) : s.popControl.params = s.params := rfl
@[simp] theorem State.ctl_popControl (s : State) : s.popControl.ctl = s.ctl.tail := rfl
@[simp] theorem State.devIn_popControl (s : State) : s.popControl.devIn = s.devIn := rfl
@[simp] theorem State.trapIn_popControl (s : State) : s.popControl.trapIn = s.trapIn := rfl
@[simp] theorem State.sent_popControl (s : State) : s.popControl.sent = s.sent := rfl
@[simp] theorem State.reg_popControl (s : State) (r' : Reg) : s.popControl.reg r' = s.reg r' := rfl

@[simp] theorem State.regs_link (s : State) : s.link.regs = s.regs.set 7 s.pc := rfl
@[simp] theorem State.pc_link (s : State) : s.link.pc = s.pc := rfl
@[simp] theorem State.cond_link (s : State) : s.link.cond = s.cond := rfl
@[simp] theorem State.run_link (s : State) : s.link.run = s.run := rfl
@[simp] theorem State.ir_link (s : State) : s.link.ir = s.ir := rfl
@[simp] theorem State.mem_link (s : State) : s.link.mem = s.mem := rfl
@[simp] theorem State.params_link (s : State) : s.link.params = s.params := rfl
@[simp] theorem State.ctl_link (s : State) : s.link.ctl = s.ctl := rfl
@[simp] theorem State.devIn_link (s : State) : s.link.devIn = s.devIn := rfl
@[simp] theorem State.trapIn_link (s : State) : s.link.trapIn = s.trapIn := rfl
@[simp] theorem State.sent_link (s : State) : s.link.sent = s.sent := rfl

@[simp] theorem State.regs_takeReset (s : State) (image : List (Word × Word)) : (s.takeReset image).regs = Vector.replicate 8 0 := rfl
@[simp] theorem State.pc_takeReset (s : State) (image : List (Word × Word)) : (s.takeReset image).pc = s.params.entryPc := rfl
@[simp] theorem State.cond_takeReset (s : State) (image : List (Word × Word)) : (s.takeReset image).cond = 0b010 := rfl
@[simp] theorem State.run_takeReset (s : State) (image : List (Word × Word)) : (s.takeReset image).run = .running := rfl
@[simp] theorem State.ir_takeReset (s : State) (image : List (Word × Word)) : (s.takeReset image).ir = 0 := rfl
@[simp] theorem State.mem_takeReset (s : State) (image : List (Word × Word)) : (s.takeReset image).mem = Memory.ofImage image := rfl
@[simp] theorem State.params_takeReset (s : State) (image : List (Word × Word)) : (s.takeReset image).params = s.params := rfl
@[simp] theorem State.ctl_takeReset (s : State) (image : List (Word × Word)) : (s.takeReset image).ctl = s.ctl := rfl
@[simp] theorem State.devIn_takeReset (s : State) (image : List (Word × Word)) : (s.takeReset image).devIn = s.devIn := rfl
@[simp] theorem State.trapIn_takeReset (s : State) (image : List (Word × Word)) : (s.takeReset image).trapIn = s.trapIn := rfl
@[simp] theorem State.sent_takeReset (s : State) (image : List (Word × Word)) : (s.takeReset image).sent = s.sent := rfl

@[simp] theorem State.pc_writeResult (s : State) (dr : Reg) (v : Word) : (s.writeResult dr v).pc = s.pc := rfl
@[simp] theorem State.run_writeResult (s : State) (dr : Reg) (v : Word) : (s.writeResult dr v).run = s.run := rfl
@[simp] theorem State.ir_writeResult (s : State) (dr : Reg) (v : Word) : (s.writeResult dr v).ir = s.ir := rfl
@[simp] theorem State.mem_writeResult (s : State) (dr : Reg) (v : Word) : (s.writeResult dr v).mem = s.mem := rfl
@[simp] theorem State.params_writeResult (s : State) (dr : Reg) (v : Word) : (s.writeResult dr v).params = s.params := rfl
@[simp] theorem State.ctl_writeResult (s : State) (dr : Reg) (v : Word) : (s.writeResult dr v).ctl = s.ctl := rfl
@[simp] theorem State.devIn_writeResult (s : State) (dr : Reg) (v : Word) : (s.writeResult dr v).devIn = s.devIn := rfl
@[simp] theorem State.trapIn_writeResult (s : State) (dr : Reg) (v : Word) : (s.writeResult dr v).trapIn = s.trapIn := rfl
@[simp] theorem State.sent_writeResult (s : State) (dr : Reg) (v : Word) : (s.writeResult dr v).sent = s.sent := rfl

/-- A register reads as written, and every other register as before. -/
@[simp] theorem State.reg_setReg (s : State) (r : Reg) (v : Word) (r' : Reg) :
    (s.setReg r v).reg r' = if r' = r then v else s.reg r' := by
  have h : r.toNat = r'.toNat ↔ r' = r := by
    rw [← BitVec.toNat_inj]; exact eq_comm
  simp [State.reg, State.setReg, Vector.getElem_set, h]

@[simp] theorem State.reg_link (s : State) (r' : Reg) :
    s.link.reg r' = if r' = 7 then s.pc else s.reg r' := State.reg_setReg s 7 s.pc r'

@[simp] theorem State.reg_writeResult (s : State) (dr : Reg) (v : Word) (r' : Reg) :
    (s.writeResult dr v).reg r' = if r' = dr then v else s.reg r' := State.reg_setReg s dr v r'

/-- The flags come from the value written (R87). -/
@[simp] theorem State.cond_writeResult (s : State) (dr : Reg) (v : Word) :
    (s.writeResult dr v).cond = flagBits (flagOf v) := by
  simp [State.writeResult]

/-- After the fetch, `pc - 1` is the address the instruction was fetched from (R24). -/
@[simp] theorem State.fetchAddr_fetched (s : State) (w : Word) : (s.fetched w).fetchAddr = s.pc := by
  simp [State.fetchAddr]

/-- Two register files that read alike at all eight numbers are one. -/
theorem State.regs_ext {s t : State} (h : ∀ r : Reg, t.reg r = s.reg r) : t.regs = s.regs := by
  apply Vector.ext
  intro i hi
  have := h (BitVec.ofNat 3 i)
  simpa [State.reg, Nat.mod_eq_of_lt hi] using this

/-- A stop taken changes nothing but the run state. -/
theorem State.takeStop_eq (s : State) :
    s.takeStop = { s with run := if s.run = .running then .stopped else s.run } := by
  cases s with
  | mk regs pc cond run ir mem params ctl devIn trapIn sent => cases run <;> rfl

@[simp] theorem flagBits_n : flagBits .n = 0b100 := rfl
@[simp] theorem flagBits_z : flagBits .z = 0b010 := rfl
@[simp] theorem flagBits_p : flagBits .p = 0b001 := rfl

end Sys2Proof.Machine
end

