-- ==== Sys2Proof/Laws/Ports.lean ====
section
/-! SUPPORT. What a port request, a read through the memory interface and a fetch can do, said once. -/

namespace Sys2Proof.Machine

/-- `Retry` only repeats the request: `n` of them before an answer leave `n + 1` requests sent (R45, R120). -/
theorem portLoop_retries {α : Type} (req : PortRequest) (free : List PortRequest → Option α) (n : Nat) (x : α)
    (rest : List (PortResponse α)) (sent : List PortRequest) :
    portLoop req free (List.replicate n .retry ++ .answer x :: rest) sent =
      (some x, rest, List.replicate (n + 1) req ++ sent) := by
  induction n generalizing sent with
  | zero => rfl
  | succ n ih =>
    rw [List.replicate_succ, List.cons_append, portLoop, ih]
    congr 2
    rw [List.replicate_succ' (n := n + 1), List.append_assoc]
    rfl

/-- Where the list holds no answer, the free value ends the request, or nothing does (log entry 5). -/
theorem portLoop_only_retries {α : Type} (req : PortRequest) (free : List PortRequest → Option α) (n : Nat)
    (sent : List PortRequest) :
    portLoop req free (List.replicate n .retry) sent =
      (free (List.replicate (n + 1) req ++ sent), [], List.replicate (n + 1) req ++ sent) := by
  induction n generalizing sent with
  | zero => rfl
  | succ n ih =>
    have h : List.replicate (n + 1) req ++ req :: sent = List.replicate (n + 1 + 1) req ++ sent := by
      rw [List.replicate_succ' (n := n + 1), List.append_assoc]
      rfl
    rw [List.replicate_succ, portLoop, ih, h]

/-- A port loop only adds copies of its one request to the requests sent. -/
theorem portLoop_sent {α : Type} (req : PortRequest) (free : List PortRequest → Option α)
    (l : List (PortResponse α)) (sent : List PortRequest) :
    ∃ n, (portLoop req free l sent).2.2 = List.replicate (n + 1) req ++ sent := by
  induction l generalizing sent with
  | nil => exact ⟨0, rfl⟩
  | cons x rest ih =>
    cases x with
    | answer x => exact ⟨0, rfl⟩
    | retry =>
      obtain ⟨n, hn⟩ := ih (req :: sent)
      refine ⟨n + 1, ?_⟩
      rw [portLoop, hn, List.replicate_succ' (n := n + 1), List.append_assoc]
      rfl

theorem ReadFrame.refl (s : State) : ReadFrame s s :=
  ⟨fun _ => rfl, rfl, rfl, ⟨rfl, rfl, rfl, rfl⟩, rfl, fun _ _ => rfl⟩

theorem ReadFrame.trans {s t u : State} (h : ReadFrame s t) (h' : ReadFrame t u) : ReadFrame s u := by
  obtain ⟨a, b, c, ⟨d1, d2, d3, d4⟩, e, f⟩ := h
  obtain ⟨a', b', c', ⟨d1', d2', d3', d4'⟩, e', f'⟩ := h'
  exact ⟨fun r => (a' r).trans (a r), b'.trans b, c'.trans c,
    ⟨d1'.trans d1, d2'.trans d2, d3'.trans d3, d4'.trans d4⟩, e'.trans e,
    fun x hx => (f' x (by rw [d3]; exact hx)).trans (f x hx)⟩

/-- Device writes touch device cells only (R46). -/
theorem read_deviceWrites {m : Memory} (h : Memory.wf m = true) (addrs : List Word) (w : List (Word × Word))
    {a : Word} (ha : addrs.contains a = false) :
    Memory.read (Memory.writeAll m (deviceWrites addrs w)) a = Memory.read m a := by
  refine Memory.read_writeAll_other h fun p hp e => ?_
  have := (List.mem_filter.mp hp).2
  rw [e] at this
  simp_all

/-- What a device read leaves behind besides its frame: the requests sent (R45). -/
theorem devRead_cases (a : Word) (s : State) :
    (∃ v m d n, devRead a s = .value v
        { s with mem := m, devIn := d, sent := List.replicate (n + 1) (.devread a) ++ s.sent } ∧
        (Memory.wf s.mem = true → Memory.wf m = true ∧
          ∀ b, s.params.deviceAddrs.contains b = false → Memory.read m b = Memory.read s.mem b)) ∨
    (∃ d n, devRead a s = .error
        { s with devIn := d, sent := List.replicate (n + 1) (.devread a) ++ s.sent }) ∨
    devRead a s = .silent a := by
  obtain ⟨n, hn⟩ := portLoop_sent (.devread a) (fun sent => Config.devicePort sent s.mem) s.devIn s.sent
  rcases hp : portLoop (.devread a) (fun sent => Config.devicePort sent s.mem) s.devIn s.sent with ⟨x, rest, sent⟩
  rw [hp] at hn
  simp only at hn
  subst hn
  rcases x with - | x
  · exact .inr (.inr (by simp only [devRead, hp]))
  · cases x with
    | value v w =>
      refine .inl ⟨v, Memory.writeAll s.mem (deviceWrites s.params.deviceAddrs w), rest, n, ?_, fun h => ?_⟩
      · simp only [devRead, hp]
      · exact ⟨Memory.wf_writeAll h _, fun b hb => read_deviceWrites h _ _ hb⟩
    | error => exact .inr (.inl ⟨rest, n, by simp only [devRead, hp]⟩)

/-- A device read whose list of responses holds no answer ends as the free value says, or not at all (log entry 5). -/
theorem memRead_only_retries {a : Word} {s : State} {n : Nat} (ha : s.params.deviceAddrs.contains a = true)
    (hd : s.devIn = List.replicate n .retry) :
    memRead a s =
      match (generalizing := false)
        Config.devicePort (List.replicate (n + 1) (.devread a) ++ s.sent) s.mem with
      | none => .silent a
      | some (.value v w) => .value v { s with
          mem := Memory.writeAll s.mem (deviceWrites s.params.deviceAddrs w), devIn := []
          sent := List.replicate (n + 1) (.devread a) ++ s.sent }
      | some .error => .error { s with devIn := [], sent := List.replicate (n + 1) (.devread a) ++ s.sent } := by
  unfold memRead devRead
  rw [if_pos ha, hd, portLoop_only_retries]
  rcases Config.devicePort _ _ with _ | _ | _ <;> rfl

/-- A read that gives a value keeps the canonical form and the read's frame (R45, R46). -/
theorem memRead_value {a v : Word} {s t : State} (h : memRead a s = .value v t) (hm : Memory.wf s.mem = true) :
    Memory.wf t.mem = true ∧ ReadFrame s t := by
  unfold memRead at h
  split at h
  · obtain ⟨v', m, d, n, e, hw⟩ | ⟨d, n, e⟩ | e := devRead_cases a s <;> rw [e] at h <;> cases h
    exact ⟨(hw hm).1, fun _ => rfl, rfl, rfl, ⟨rfl, rfl, rfl, rfl⟩, rfl, (hw hm).2⟩
  · cases h
    exact ⟨hm, ReadFrame.refl _⟩

/-- A read that a device error ends changes no memory cell and keeps the read's frame (R45). -/
theorem memRead_error {a : Word} {s t : State} (h : memRead a s = .error t) :
    t.mem = s.mem ∧ ReadFrame s t ∧ s.params.deviceAddrs.contains a = true := by
  unfold memRead at h
  split at h
  · rename_i ha
    obtain ⟨v', m, d, n, e, hw⟩ | ⟨d, n, e⟩ | e := devRead_cases a s <;> rw [e] at h <;> cases h
    exact ⟨rfl, ⟨fun _ => rfl, rfl, rfl, ⟨rfl, rfl, rfl, rfl⟩, rfl, fun _ _ => rfl⟩, ha⟩
  · cases h

/-- Only a device address can stay unanswered, and it is the address read. -/
theorem memRead_silent {a b : Word} {s : State} (h : memRead a s = .silent b) :
    b = a ∧ s.params.deviceAddrs.contains a = true := by
  unfold memRead at h
  split at h
  · rename_i ha
    obtain ⟨v', m, d, n, e, hw⟩ | ⟨d, n, e⟩ | e := devRead_cases a s <;> rw [e] at h <;> cases h
    exact ⟨rfl, ha⟩
  · cases h

/-- Everything a read and what follows it can answer as a next state. -/
theorem withRead_next {a : Word} {s t : State} {k : Word → State → StepOutcome} (h : withRead a s k = .next t) :
    (∃ v s', memRead a s = .value v s' ∧ k v s' = .next t) ∨
    (∃ s', memRead a s = .error s' ∧ t = s'.raise .deviceError) := by
  unfold withRead at h
  cases hr : memRead a s with
  | value v s' => rw [hr] at h; exact .inl ⟨v, s', rfl, h⟩
  | error s' => rw [hr] at h; cases h; exact .inr ⟨s', rfl, rfl⟩
  | silent b => rw [hr] at h; cases h

theorem loadFrom_next {dr : Reg} {ea : Word} {s t : State} (h : loadFrom dr ea s = .next t) :
    (∃ v s', memRead ea s = .value v s' ∧ t = s'.writeResult dr v) ∨
    (∃ s', memRead ea s = .error s' ∧ t = s'.raise .deviceError) := by
  obtain ⟨v, s', h1, h2⟩ | h := withRead_next h
  · cases h2; exact .inl ⟨v, s', h1, rfl⟩
  · exact .inr h

/-- Everything a fetch and what follows it can answer as a next state (R81, R82). -/
theorem withFetch_next {s t : State} {k : Word → State → StepOutcome} (h : withFetch s k = .next t) :
    (∃ w s', memRead s.pc s = .value w s' ∧ k w (s'.fetched w) = .next t) ∨
    (∃ s', memRead s.pc s = .error s' ∧ t = s'.raiseOnFetch) := by
  unfold withFetch at h
  cases hr : memRead s.pc s with
  | value w s' => rw [hr] at h; exact .inl ⟨w, s', rfl, h⟩
  | error s' => rw [hr] at h; cases h; exact .inr ⟨s', rfl, rfl⟩
  | silent b => rw [hr] at h; cases h

/-- A trap request leaves everything but the trap port's responses and the requests sent (R120, R123). -/
theorem trapCall_answer {vect : BitVec 8} {s t : State} {x : TrapAnswer} (h : trapCall vect s = .answer x t) :
    ∃ d n, t = { s with
      trapIn := d, sent := List.replicate (n + 1) (.trap (s.trapRequest vect)) ++ s.sent } := by
  obtain ⟨n, hn⟩ := portLoop_sent (.trap (s.trapRequest vect)) Config.trapPort s.trapIn s.sent
  unfold trapCall at h
  rcases hp : portLoop (.trap (s.trapRequest vect)) Config.trapPort s.trapIn s.sent with ⟨o, rest, sent⟩
  rw [hp] at h hn
  simp only at hn
  subst hn
  cases o with
  | none => cases h
  | some y => cases h; exact ⟨rest, n, rfl⟩

end Sys2Proof.Machine
end

