-- ==== Sys2Proof/Laws/Step.lean ====
section
/-! SUPPORT. Everything a step and an instruction can do when they answer a next state, said once. -/

namespace Sys2Proof.Machine

/-- A read outside `DEVICE_ADDRS` is the stored word (R45). -/
theorem memRead_ordinary {a : Word} {s : State} (h : s.params.deviceAddrs.contains a = false) :
    memRead a s = .value (Memory.read s.mem a) s := by
  unfold memRead
  rw [h]
  rfl

/-- A read that gives a value changes at most the memory, the responses left and the requests sent. -/
theorem memRead_value_eq {a w : Word} {s t : State} (h : memRead a s = .value w t) :
    ∃ m d q, t = { s with mem := m, devIn := d, sent := q } := by
  unfold memRead at h
  split at h
  · obtain ⟨v, m, d, n, e, -⟩ | ⟨d, n, e⟩ | e := devRead_cases a s <;> rw [e] at h <;> cases h
    exact ⟨_, _, _, rfl⟩
  · cases h
    exact ⟨_, _, _, rfl⟩

/-- A RUNNING core with idle control inputs runs an instruction (R80). -/
theorem step_idle_running {s : State} (hc : s.control = .idle) (hr : s.run = .running) :
    step s = runInstruction s.popControl := by
  have hr' : s.popControl.run = .running := hr
  unfold step cycle
  rw [hc]
  simp only [idleCycle, hr']

/-- Such a step, once the fetch has given a word (R81 to R83). -/
theorem step_fetched {s s1 : State} {w : Word} (hc : s.control = .idle) (hr : s.run = .running)
    (h : memRead s.pc s.popControl = .value w s1) : step s = dispatch (decode w) (s1.fetched w) := by
  have h' : memRead s.popControl.pc s.popControl = .value w s1 := h
  rw [step_idle_running hc hr]
  unfold runInstruction withFetch
  rw [h']

/-- Such a step, where a device error ends the fetch (R81). -/
theorem step_fetch_error {s s1 : State} (hc : s.control = .idle) (hr : s.run = .running)
    (h : memRead s.pc s.popControl = .error s1) : step s = .next s1.raiseOnFetch := by
  have h' : memRead s.popControl.pc s.popControl = .error s1 := h
  rw [step_idle_running hc hr]
  unfold runInstruction withFetch
  rw [h']

/-- Such a step, where the device port never answers the fetch (R46). -/
theorem step_fetch_silent {s : State} {a : Word} (hc : s.control = .idle) (hr : s.run = .running)
    (h : memRead s.pc s.popControl = .silent a) : step s = .fault (.devicePortSilent a) := by
  have h' : memRead s.popControl.pc s.popControl = .silent a := h
  rw [step_idle_running hc hr]
  unfold runInstruction withFetch
  rw [h']

/-- The five ways a step answers a next state. -/
theorem step_cases {s t : State} (h : step s = .next t) :
    (∃ image, s.control = .reset image ∧ t = s.popControl.takeReset image) ∨
    (s.control = .stop ∧ t = s.popControl.takeStop) ∨
    (s.control = .idle ∧ s.run ≠ .running ∧ t = s.popControl) ∨
    (s.control = .idle ∧ s.run = .running ∧ ∃ s1, memRead s.pc s.popControl = .error s1 ∧ t = s1.raiseOnFetch) ∨
    (s.control = .idle ∧ s.run = .running ∧ ∃ w s1, memRead s.pc s.popControl = .value w s1 ∧
      (((decode w).wf s.params.strictUnusedBits = true ∧ exec (decode w) (s1.fetched w) = .next t) ∨
       ((decode w).wf s.params.strictUnusedBits = false ∧ t = (s1.fetched w).raise .badOpcode))) := by
  cases hc : s.control with
  | reset image =>
    unfold step cycle at h
    rw [hc] at h
    cases h
    exact .inl ⟨image, rfl, rfl⟩
  | stop =>
    unfold step cycle at h
    rw [hc] at h
    cases h
    exact .inr (.inl ⟨rfl, rfl⟩)
  | idle =>
    refine .inr (.inr ?_)
    by_cases hr : s.run = .running
    · rw [step_idle_running hc hr] at h
      obtain ⟨w, s1, h1, h2⟩ | ⟨s1, h1, rfl⟩ := withFetch_next h
      · refine .inr (.inr ⟨rfl, hr, w, s1, h1, ?_⟩)
        obtain ⟨m, d, q, e⟩ := memRead_value_eq h1
        have hp : (s1.fetched w).params = s.params := by rw [e]; rfl
        unfold dispatch at h2
        rw [hp] at h2
        split at h2
        · exact .inl ⟨‹_›, h2⟩
        · rename_i hwf
          cases h2
          exact .inr ⟨Bool.eq_false_iff.mpr hwf, rfl⟩
      · exact .inr (.inl ⟨rfl, hr, s1, h1, rfl⟩)
    · refine .inl ⟨rfl, hr, ?_⟩
      unfold step cycle at h
      rw [hc] at h
      simp only [idleCycle] at h
      split at h
      · rename_i e; exact absurd e hr
      all_goals (cases h; rfl)

/-- `t` is reached from `s` by data reads of the instruction `i`, each of which gave a value. -/
inductive Reads (i : Instr) : State → State → Prop where
  | none (s : State) : Reads i s s
  | one {s t u : State} {a v : Word} (hi : readsData i = true) (h : Reads i s t) (hr : memRead a t = .value v u) :
      Reads i s u

/-- Everything an instruction can leave behind as a next state (R90 to R122). -/
inductive Effect (i : Instr) (s : State) : State → Prop where
  /-- A register result with its flags. -/
  | result {dr : Reg} {v : Word} {u : State} (hw : writtenReg i = some dr) (hf : updatesFlags i = true)
      (hr : Reads i s u) : Effect i s (u.writeResult dr v)
  /-- A branch not taken. -/
  | stay (hp : writesPc i = true) : Effect i s s
  /-- A jump without a link. -/
  | jump {target : Word} (hp : writesPc i = true) : Effect i s (s.setPc target)
  /-- A call. -/
  | call {target : Word} (hp : writesPc i = true) (hw : writtenReg i = some 7) : Effect i s (s.link.setPc target)
  /-- A store, to the cell `storeTarget` computes. -/
  | store {ea : Word} {sr : Reg} {u : State} (ht : storeTarget i s = some ea) (hr : Reads i s u) :
      Effect i s (u.memWrite ea (u.reg sr))
  /-- A data read that a device error ended. -/
  | deviceError {a : Word} {u u' : State} (hi : readsData i = true) (hr : Reads i s u) (he : memRead a u = .error u') :
      Effect i s (u'.raise .deviceError)
  /-- A trap answer. -/
  | trap {unused : BitVec 4} {vect : BitVec 8} {x : TrapAnswer} {u : State} (hi : i = .trap unused vect)
      (hc : trapCall vect s = .answer x u) : Effect i s (applyTrapAnswer x u)
  /-- An opcode without a handler. -/
  | badOpcode (hi : isUnsupported i = true) : Effect i s (s.raise .badOpcode)

theorem loadFrom_effect {i : Instr} {dr : Reg} {ea : Word} {s u t : State} (hw : writtenReg i = some dr)
    (hf : updatesFlags i = true) (hi : readsData i = true) (hr : Reads i s u) (h : loadFrom dr ea u = .next t) :
    Effect i s t := by
  obtain ⟨v, s', h1, rfl⟩ | ⟨s', h1, rfl⟩ := loadFrom_next h
  · exact .result hw hf (.one hi hr h1)
  · exact .deviceError hi hr h1

/-- What `exec` does, for every instruction. -/
theorem exec_effect {i : Instr} {s t : State} (h : exec i s = .next t) : Effect i s t := by
  cases i with
  | addReg dr sr1 u sr2 => cases h; exact .result rfl rfl (.none s)
  | addImm dr sr1 imm5 => cases h; exact .result rfl rfl (.none s)
  | andReg dr sr1 u sr2 => cases h; exact .result rfl rfl (.none s)
  | andImm dr sr1 imm5 => cases h; exact .result rfl rfl (.none s)
  | not dr sr u => cases h; exact .result rfl rfl (.none s)
  | br nzp off9 =>
    cases h
    split
    · exact .jump rfl
    · exact .stay rfl
  | jmp u base l => cases h; exact .jump rfl
  | jsr off11 => cases h; exact .call rfl rfl
  | jsrr u base l => cases h; exact .call rfl rfl
  | ld dr off9 => exact loadFrom_effect rfl rfl rfl (.none s) h
  | ldr dr base off6 => exact loadFrom_effect rfl rfl rfl (.none s) h
  | ldi dr off9 =>
    obtain ⟨v, s', h1, h2⟩ | ⟨s', h1, rfl⟩ := withRead_next (show withRead _ _ _ = _ from h)
    · exact loadFrom_effect rfl rfl rfl (.one rfl (.none s) h1) h2
    · exact .deviceError rfl (.none s) h1
  | lea dr off9 => cases h; exact .result rfl rfl (.none s)
  | st sr off9 => cases h; exact .store rfl (.none s)
  | str sr base off6 => cases h; exact .store rfl (.none s)
  | sti sr off9 =>
    obtain ⟨v, s', h1, h2⟩ | ⟨s', h1, rfl⟩ := withRead_next (show withRead _ _ _ = _ from h)
    · cases h2
      refine .store ?_ (.one rfl (.none s) h1)
      simp only [storeTarget, h1]
    · exact .deviceError rfl (.none s) h1
  | trap unused vect =>
    simp only [exec, execTrap] at h
    split at h
    · cases h; exact .trap rfl ‹_›
    · cases h
  | rti x => cases h; exact .badOpcode rfl
  | reserved13 x => cases h; exact .badOpcode rfl

/-- Data reads keep the canonical form of the memory and the read's frame (R45, R46). -/
theorem Reads.frame {i : Instr} {s t : State} (h : Reads i s t) (hm : Memory.wf s.mem = true) :
    Memory.wf t.mem = true ∧ ReadFrame s t := by
  induction h with
  | none => exact ⟨hm, ReadFrame.refl _⟩
  | one hi h hr ih =>
    have := memRead_value hr ih.1
    exact ⟨this.1, ih.2.trans this.2⟩

/-- Data reads change at most the memory, the responses left and the requests sent. -/
theorem Reads.eq {i : Instr} {s t : State} (h : Reads i s t) :
    ∃ m d q, t = { s with mem := m, devIn := d, sent := q } := by
  induction h with
  | none => exact ⟨_, _, _, rfl⟩
  | one hi h hr ih =>
    obtain ⟨m, d, q, rfl⟩ := ih
    obtain ⟨m', d', q', rfl⟩ := memRead_value_eq hr
    exact ⟨_, _, _, rfl⟩

end Sys2Proof.Machine
end

