-- ==== Sys2Proof/Tests/Slice0.lean ====
section
/-! SUPPORT. Tests whose expected results stand in spec/95_test_vectors.md (the vector's id is named) or in the worked
examples of spec/41_operate.md to spec/44_trap_and_unsupported.md, the check of unused bits on ill-formed instructions,
and the witnesses that the hypotheses of the statements can be met. -/

namespace Sys2Proof.Tests

open Sys2Proof.Machine Sys2Proof.Claims

/-! ## Small states -/

/-- The start state of the test vectors with `words` in memory, running at `pc`. -/
def at_ (pc : Word) (words : List (Word × Word)) : State :=
  { State.boot Params.default (Memory.ofImage words) with pc := pc }

/-- That state with its device port's responses. -/
def atDev (pc : Word) (words : List (Word × Word)) (d : List (PortResponse DeviceAnswer)) : State :=
  { at_ pc words with devIn := d }

/-- One instruction at 0x3000 with its trap port's responses. -/
def atTrap (w : Word) (d : List (PortResponse TrapAnswer)) : State :=
  { at_ 0x3000 [(0x3000, w)] with trapIn := d }

/-- One instruction at 0x3000 under `STRICT_UNUSED_BITS`. -/
def atStrict (w : Word) : State :=
  { at_ 0x3000 [(0x3000, w)] with params := { Params.default with strictUnusedBits := true } }

/-- The start state whose next control sample is `c`. -/
def atControl (c : Control) : State := { State.reset with ctl := [c] }

/-- What `f` shows of the state an outcome gives. -/
def shows {α : Type} (o : StepOutcome) (f : State → α) : Option α :=
  match o with
  | .next t => some (f t)
  | .fault _ => none
  | .refused _ => none

/-- The eight registers of a file that holds 0 but for R0 and R7. -/
def fileOf (r0 r7 : Word) : RegFile := #v[r0, 0, 0, 0, 0, 0, 0, r7]

/-! ## Decoding: words of the spec's examples -/

theorem test_decode_add_reg : decode 0x105A = .addReg 0 1 0b11 2 := by decide
theorem test_decode_add_imm : decode 0x14B0 = .addImm 2 2 0b10000 := by decide
theorem test_decode_and_reg : decode 0x5042 = .andReg 0 1 0 2 := by decide
theorem test_decode_and_imm : decode 0x527E = .andImm 1 1 0b11110 := by decide
theorem test_decode_not : decode 0x9280 = .not 1 2 0 := by decide
theorem test_decode_br : decode 0x0900 = .br 0b100 0b100000000 := by decide
theorem test_decode_jmp : decode 0xC1C1 = .jmp 0 7 1 := by decide
theorem test_decode_jsr : decode 0x4C00 = .jsr 0b10000000000 := by decide
theorem test_decode_jsrr : decode 0x45C0 = .jsrr 0b10 7 0 := by decide
theorem test_decode_ld : decode 0x21FF = .ld 0 0b111111111 := by decide
theorem test_decode_ldr : decode 0x6900 = .ldr 4 4 0 := by decide
theorem test_decode_ldi : decode 0xA601 = .ldi 3 1 := by decide
theorem test_decode_lea : decode 0xEBFE = .lea 5 0b111111110 := by decide
theorem test_decode_st : decode 0x3203 = .st 1 3 := by decide
theorem test_decode_str : decode 0x72A0 = .str 1 2 0b100000 := by decide
theorem test_decode_sti : decode 0xB1FE = .sti 0 0b111111110 := by decide
theorem test_decode_trap : decode 0xF125 = .trap 1 0x25 := by decide
theorem test_decode_rti : decode 0x8FFF = .rti 0xFFF := by decide
theorem test_decode_reserved13 : decode 0xDFFF = .reserved13 0xFFF := by decide
theorem test_decode_no_word : decodeWords [] = .error .noWord := rfl
theorem test_decode_table_word : decodeTableWord 16 0x1042 = some (.addReg 0 1 0 2) := by decide

/-! ## Unused bits: one ill-formed instruction for each check of R67 -/

theorem test_wf_add : Instr.wf true (.addReg 0 1 0b11 2) = false := by decide
theorem test_wf_and : Instr.wf true (.andReg 0 1 0b01 2) = false := by decide
theorem test_wf_not : Instr.wf true (.not 1 2 0) = false := by decide
theorem test_wf_jmp_hi : Instr.wf true (.jmp 1 7 0) = false := by decide
theorem test_wf_jmp_lo : Instr.wf true (.jmp 0 7 1) = false := by decide
theorem test_wf_jsrr_hi : Instr.wf true (.jsrr 0b10 7 0) = false := by decide
theorem test_wf_jsrr_lo : Instr.wf true (.jsrr 0 7 1) = false := by decide
theorem test_wf_trap : Instr.wf true (.trap 1 0x25) = false := by decide
theorem test_wf_canonical_not : Instr.wf true (.not 1 2 0b111111) = true := by decide
theorem test_wf_ignored : Instr.wf false (.not 1 2 0) = true := by decide

/-! ## One step each -/

/-- V-ADD-2: signed overflow wraps. -/
theorem test_add_reg_wraps :
    shows (step (((at_ 0x3000 [(0x3000, 0x1042)]).setReg 1 0x7FFF).setReg 2 1))
      (fun t => (t.reg 0, t.cond, t.pc)) = some (0x8000, 0b100, 0x3001) := by decide

/-- V-ADD-5: both operands are read before the write. -/
theorem test_add_reg_same :
    shows (step ((at_ 0x3000 [(0x3000, 0x16C3)]).setReg 3 0x4000)) (fun t => (t.reg 3, t.cond)) =
      some (0x8000, 0b100) := by decide

/-- V-ADD-7. -/
theorem test_add_imm_negative :
    shows (step ((at_ 0x3000 [(0x3000, 0x14B0)]).setReg 2 16)) (fun t => (t.reg 2, t.cond)) =
      some (0x0000, 0b010) := by decide

/-- V-ADD-12: the flags are set from an unchanged value. -/
theorem test_add_imm_flags :
    shows (step (((at_ 0x3000 [(0x3000, 0x1020)]).setReg 0 0x8001).setCond 0b001)) (fun t => (t.reg 0, t.cond)) =
      some (0x8001, 0b100) := by decide

/-- V-AND-1. -/
theorem test_and_reg :
    shows (step (((at_ 0x3000 [(0x3000, 0x5042)]).setReg 1 0x00FF).setReg 2 0x0F0F)) (fun t => (t.reg 0, t.cond)) =
      some (0x000F, 0b001) := by decide

/-- V-AND-4. -/
theorem test_and_imm :
    shows (step ((at_ 0x3000 [(0x3000, 0x527E)]).setReg 1 0xFFFF)) (fun t => (t.reg 1, t.cond)) =
      some (0xFFFE, 0b100) := by decide

/-- V-NOT-3. -/
theorem test_not :
    shows (step ((at_ 0x3000 [(0x3000, 0x92BF)]).setReg 2 0x8000)) (fun t => (t.reg 1, t.cond)) =
      some (0x7FFF, 0b001) := by decide

/-- V-NOT-4: bits 5:0 are ignored. -/
theorem test_not_unused :
    shows (step ((at_ 0x3000 [(0x3000, 0x9240)]).setReg 1 0x5555)) (fun t => (t.reg 1, t.cond)) =
      some (0xAAAA, 0b100) := by decide

/-- V-BR-4: the target wraps. -/
theorem test_br_wraps :
    shows (step ((at_ 0xFF80 [(0xFF80, 0x02FF)]).setCond 0b001)) (fun t => t.pc) = some 0x0080 := by decide

/-- The BR truth table: BRnp, with Z set, is not taken. -/
theorem test_br_not_taken :
    shows (step (at_ 0x3000 [(0x3000, 0x0A05)])) (fun t => t.pc) = some 0x3001 := by decide

/-- V-JMP-2: RET. -/
theorem test_ret :
    shows (step ((at_ 0x3000 [(0x3000, 0xC1C0)]).setReg 7 0x3456)) (fun t => (t.pc, t.reg 7)) =
      some (0x3456, 0x3456) := by decide

/-- V-JSR-3: the target wraps. -/
theorem test_jsr_wraps :
    shows (step (at_ 0xFFF0 [(0xFFF0, 0x4BFF)])) (fun t => (t.reg 7, t.pc)) = some (0xFFF1, 0x03F0) := by decide

/-- V-JSR-5. -/
theorem test_jsrr :
    shows (step ((at_ 0x3000 [(0x3000, 0x40C0)]).setReg 3 0x5000)) (fun t => (t.reg 7, t.pc)) =
      some (0x3001, 0x5000) := by decide

/-- V-JSR-6: JSRR R7 falls through. -/
theorem test_jsrr_r7 :
    shows (step ((at_ 0x3000 [(0x3000, 0x41C0)]).setReg 7 0x1234)) (fun t => (t.reg 7, t.pc)) =
      some (0x3001, 0x3001) := by decide

/-- V-LD-3: LD at 0xFFFF reads its own word. -/
theorem test_ld_wraps :
    shows (step (at_ 0xFFFF [(0xFFFF, 0x21FF)])) (fun t => (t.reg 0, t.cond, t.pc)) =
      some (0x21FF, 0b001, 0x0000) := by decide

/-- V-DEV-2: the registers and flags survive a device error. -/
theorem test_ld_device_error :
    shows (step (((atDev 0xFE01 [(0xFE01, 0x2000)] [.answer .error]).setReg 0 0x1111).setCond 0b001))
      (fun t => (t.run, t.reg 0, t.cond, t.pc)) =
      some (.faulted ⟨.deviceError, 0x2000, 0xFE01⟩, 0x1111, 0b001, 0xFE02) := by decide

/-- V-LDR-1. -/
theorem test_ldr :
    shows (step ((at_ 0x3000 [(0x3000, 0x62BF)]).setReg 2 0x4001)) (fun t => (t.reg 1, t.cond)) =
      some (0x0000, 0b010) := by decide

/-- V-LDR-2: DR is BaseR. -/
theorem test_ldr_same :
    shows (step ((at_ 0x3000 [(0x3000, 0x6900), (0x4000, 0x7FFF)]).setReg 4 0x4000)) (fun t => (t.reg 4, t.cond)) =
      some (0x7FFF, 0b001) := by decide

/-- V-LDI-1. -/
theorem test_ldi :
    shows (step (at_ 0x3000 [(0x3000, 0xA601), (0x3002, 0x4000), (0x4000, 0x0007)]))
      (fun t => (t.reg 3, t.cond)) = some (0x0007, 0b001) := by decide

/-- V-DEV-6: the writes of the first read stay when the second ends in an error. -/
theorem test_ldi_second_error :
    shows (step (atDev 0xFE01 [(0xFE01, 0xA1FE)] [.answer (.value 0xFE02 [(0xFE00, 0x8000)]), .answer .error]))
      (fun t => (t.run, t.reg 0, t.cond, Memory.read t.mem 0xFE00)) =
      some (.faulted ⟨.deviceError, 0xA1FE, 0xFE01⟩, 0x0000, 0b010, 0x8000) := by decide

/-- V-LEA-4: no device request. -/
theorem test_lea_device_address :
    shows (step (at_ 0xFDFF [(0xFDFF, 0xE000)])) (fun t => (t.reg 0, t.cond, t.sent)) =
      some (0xFE00, 0b100, []) := by decide

/-- V-ST-2: the running instruction is unaffected by its own store. -/
theorem test_st_own_cell :
    shows (step ((at_ 0x3000 [(0x3000, 0x31FF)]).setReg 0 0xAAAA))
      (fun t => (Memory.read t.mem 0x3000, t.ir, t.pc)) = some (0xAAAA, 0x31FF, 0x3001) := by decide

/-- V-ST-3: a store to a device cell sends nothing. -/
theorem test_st_device_cell :
    shows (step ((at_ 0xFDFF [(0xFDFF, 0x3000)]).setReg 0 0xBEEF))
      (fun t => (Memory.read t.mem 0xFE00, t.sent)) = some (0xBEEF, []) := by decide

/-- V-STR-3: the address wraps. -/
theorem test_str_wraps :
    shows (step (((at_ 0x3000 [(0x3000, 0x72A0)]).setReg 1 7).setReg 2 0x0010))
      (fun t => Memory.read t.mem 0xFFF0) = some 0x0007 := by decide

/-- V-STI-2: the pointer is overwritten. -/
theorem test_sti_pointer :
    shows (step ((at_ 0x3000 [(0x3000, 0xB001), (0x3002, 0x3002)]).setReg 0 0x00AA))
      (fun t => Memory.read t.mem 0x3002) = some 0x00AA := by decide

/-- V-DEV-8: Retry, then a pointer. -/
theorem test_sti_retry :
    shows (step ((atDev 0xFE01 [(0xFE01, 0xB1FE)] [.retry, .answer (.value 0x5001 [])]).setReg 0 0x00AA))
      (fun t => (Memory.read t.mem 0x5001, t.run, t.sent.length)) = some (0x00AA, .running, 2) := by decide

/-- V-TRAP-5. -/
theorem test_trap_halt :
    shows (step ((atTrap 0xF025 [.answer (.halt (fileOf 9 0x7777) .n)]).setReg 0 5))
      (fun t => (t.regs, t.cond, t.run, t.pc)) = some (fileOf 9 0x7777, 0b100, .halted, 0x3001) := by decide

/-- V-TRAP-6. -/
theorem test_trap_error :
    shows (step ((atTrap 0xF0FF [.answer .error]).setReg 7 0x1234)) (fun t => (t.run, t.reg 7, t.pc)) =
      some (.faulted ⟨.trapError, 0xF0FF, 0x3000⟩, 0x1234, 0x3001) := by decide

/-- V-RTI-1. -/
theorem test_rti :
    shows (step (at_ 0x3000 [(0x3000, 0x8000)])) (fun t => (t.run, t.pc)) =
      some (.faulted ⟨.badOpcode, 0x8000, 0x3000⟩, 0x3001) := by decide

/-- V-13-1. -/
theorem test_reserved13 :
    shows (step (at_ 0x4000 [(0x4000, 0xDFFF)])) (fun t => (t.run, t.pc)) =
      some (.faulted ⟨.badOpcode, 0xDFFF, 0x4000⟩, 0x4001) := by decide

/-- V-DEV-9. -/
theorem test_fetch_error :
    shows (step (atDev 0xFE00 [] [.answer .error])) (fun t => (t.run, t.pc)) =
      some (.faulted ⟨.deviceError, 0x0000, 0xFE00⟩, 0xFE00) := by decide

/-- V-DEV-10. -/
theorem test_fetch_device :
    shows (step (atDev 0xFE02 [] [.answer (.value 0x1021 [])])) (fun t => (t.reg 0, t.cond, t.pc)) =
      some (1, 0b001, 0xFE03) := by decide

/-- V-STRICT-6. -/
theorem test_strict_jsrr :
    shows (step ((atStrict 0x45C0).setReg 7 0x1234)) (fun t => (t.run, t.reg 7)) =
      some (.faulted ⟨.badOpcode, 0x45C0, 0x3000⟩, 0x1234) := by decide

/-- V-STRICT-7: no trap request. -/
theorem test_strict_trap :
    shows (step (atStrict 0xF125)) (fun t => (t.run, t.sent)) =
      some (.faulted ⟨.badOpcode, 0xF125, 0x3000⟩, []) := by decide

/-- V-STOP-1. -/
theorem test_stop :
    shows (step (atControl .stop)) (fun t => (t.run, t.pc)) = some (.stopped, 0x3000) := by decide

/-- V-TERM-1. -/
theorem test_terminal :
    shows (step { State.reset with run := .halted }) (fun t => t) = some { State.reset with run := .halted } := by
  decide

/-- The numbers of the causes (R131). -/
theorem test_fault_codes :
    (FaultCause.badOpcode.code, FaultCause.trapError.code, FaultCause.deviceError.code) = (1, 2, 3) := rfl

/-- The placed word is the one the next step runs. -/
theorem test_with_fetch_word :
    shows (step (State.reset.withFetchWord 16 0x1225)) (fun t => (t.reg 1, t.ir)) = some (5, 0x1225) := by decide

/-! ## Witnesses: the hypotheses of each statement can be met -/

theorem witness_add_immediate_zero : (at_ 0x3001 []).reg 5 = 0 := by decide
theorem witness_branch_one_hot : OneHot (at_ 0x3001 []).cond := .inr (.inl rfl)

theorem witness_ld_value :
    Memory.wf (at_ 0x0000 [(0xFFFF, 0x21FF)]).mem = true ∧
      ∃ s1, memRead ((at_ 0x0000 [(0xFFFF, 0x21FF)]).pc + BitVec.ofInt 16 (-1 : BitVec 9).toInt)
        (at_ 0x0000 [(0xFFFF, 0x21FF)]) = .value 0x21FF s1 := ⟨by decide, _, rfl⟩
theorem witness_ld_error :
    Memory.wf (atDev 0xFE02 [] [.answer .error]).mem = true ∧
      ∃ s1, memRead ((atDev 0xFE02 [] [.answer .error]).pc + BitVec.ofInt 16 (0 : BitVec 9).toInt)
        (atDev 0xFE02 [] [.answer .error]) = .error s1 := ⟨by decide, _, rfl⟩
theorem witness_ldr_value :
    Memory.wf (at_ 0x3001 [(0x0000, 0x00AB)]).mem = true ∧
      ∃ s1, memRead (((at_ 0x3001 [(0x0000, 0x00AB)]).setReg 2 0xFFFF).reg 2 + BitVec.ofInt 16 (1 : BitVec 6).toInt)
        ((at_ 0x3001 [(0x0000, 0x00AB)]).setReg 2 0xFFFF) = .value 0x00AB s1 := ⟨by decide, _, rfl⟩
theorem witness_ldr_error :
    Memory.wf (atDev 0x3001 [] [.answer .error]).mem = true ∧
      ∃ s1, memRead (((atDev 0x3001 [] [.answer .error]).setReg 2 0xFE20).reg 2 +
        BitVec.ofInt 16 (-32 : BitVec 6).toInt) ((atDev 0x3001 [] [.answer .error]).setReg 2 0xFE20) = .error s1 :=
  ⟨by decide, _, rfl⟩
theorem witness_ldi_value :
    Memory.wf (at_ 0x3001 [(0x3002, 0x4000), (0x4000, 7)]).mem = true ∧
      ∃ s1 s2, memRead ((at_ 0x3001 [(0x3002, 0x4000), (0x4000, 7)]).pc + BitVec.ofInt 16 (1 : BitVec 9).toInt)
        (at_ 0x3001 [(0x3002, 0x4000), (0x4000, 7)]) = .value 0x4000 s1 ∧ memRead 0x4000 s1 = .value 7 s2 :=
  ⟨by decide, _, _, rfl, rfl⟩
theorem witness_ldi_first_error :
    Memory.wf (atDev 0xFE02 [] [.answer .error]).mem = true ∧
      ∃ s1, memRead ((atDev 0xFE02 [] [.answer .error]).pc + BitVec.ofInt 16 (-2 : BitVec 9).toInt)
        (atDev 0xFE02 [] [.answer .error]) = .error s1 := ⟨by decide, _, rfl⟩
theorem witness_ldi_second_error :
    Memory.wf (atDev 0x3001 [(0x3002, 0xFE00)] [.answer .error]).mem = true ∧
      ∃ s1 s2, memRead ((atDev 0x3001 [(0x3002, 0xFE00)] [.answer .error]).pc + BitVec.ofInt 16 (1 : BitVec 9).toInt)
        (atDev 0x3001 [(0x3002, 0xFE00)] [.answer .error]) = .value 0xFE00 s1 ∧ memRead 0xFE00 s1 = .error s2 :=
  ⟨by decide, _, _, rfl, rfl⟩
theorem witness_store_canonical : Memory.wf (at_ 0x3001 [(0xFFFF, 0xFFFF), (0x0000, 0x0001)]).mem = true := by decide
theorem witness_sti_value :
    Memory.wf (at_ 0x3001 [(0x3002, 0x3002)]).mem = true ∧
      ∃ s1, memRead (pcRelative (1 : BitVec 9) (at_ 0x3001 [(0x3002, 0x3002)])) (at_ 0x3001 [(0x3002, 0x3002)]) =
        .value 0x3002 s1 := ⟨by decide, _, rfl⟩
theorem witness_sti_error :
    Memory.wf (atDev 0xFE02 [] [.answer .error]).mem = true ∧
      ∃ s1, memRead (pcRelative (-2 : BitVec 9) (atDev 0xFE02 [] [.answer .error]))
        (atDev 0xFE02 [] [.answer .error]) = .error s1 := ⟨by decide, _, rfl⟩

theorem witness_trap_continue :
    (atTrap 0xF021 [.retry, .retry, .answer (.cont (fileOf 1 2) .p)]).trapIn =
      List.replicate 2 .retry ++ .answer (.cont (fileOf 1 2) .p) :: [] := rfl
theorem witness_trap_halt :
    (atTrap 0xF025 [.answer (.halt (fileOf 9 0x7777) .n)]).trapIn =
      List.replicate 0 .retry ++ .answer (.halt (fileOf 9 0x7777) .n) :: [] := rfl
theorem witness_trap_error :
    (atTrap 0xF0FF [.answer .error]).trapIn = List.replicate 0 .retry ++ .answer .error :: [] := rfl

theorem witness_sext_width : (5 = 5 ∨ 5 = 6 ∨ 5 = 9 ∨ 5 = 11) ∧ (11 = 5 ∨ 11 = 6 ∨ 11 = 9 ∨ 11 = 11) := by decide
theorem witness_ordinary_read :
    Memory.wf (at_ 0x3001 []).mem = true ∧ (at_ 0x3001 []).params.deviceAddrs.contains 0xFE01 = false ∧
      (0xFE01 : Word) ≠ 0xFE00 := by decide
theorem witness_ordinary_completion :
    Memory.wf (at_ 0x3001 [(0x3002, 0xFFFF), (0xFFFF, 7)]).mem = true ∧
      (at_ 0x3001 [(0x3002, 0xFFFF), (0xFFFF, 7)]).params.deviceAddrs.contains
        (pcRelative (1 : BitVec 9) (at_ 0x3001 [(0x3002, 0xFFFF), (0xFFFF, 7)])) = false ∧
      (at_ 0x3001 [(0x3002, 0xFFFF), (0xFFFF, 7)]).params.deviceAddrs.contains
        (baseOffset 0 (-1 : BitVec 6) (at_ 0x3001 [(0x3002, 0xFFFF), (0xFFFF, 7)])) = false ∧
      (at_ 0x3001 [(0x3002, 0xFFFF), (0xFFFF, 7)]).params.deviceAddrs.contains
        (Memory.read (at_ 0x3001 [(0x3002, 0xFFFF), (0xFFFF, 7)]).mem
          (pcRelative (1 : BitVec 9) (at_ 0x3001 [(0x3002, 0xFFFF), (0xFFFF, 7)]))) = false := by decide
theorem witness_device_value :
    Memory.wf (atDev 0x3001 [] [.retry, .answer (.value 1 [(0xFE00, 2)])]).mem = true ∧
      (atDev 0x3001 [] [.retry, .answer (.value 1 [(0xFE00, 2)])]).params.deviceAddrs.contains 0xFE00 = true ∧
      (atDev 0x3001 [] [.retry, .answer (.value 1 [(0xFE00, 2)])]).devIn =
        List.replicate 1 .retry ++ .answer (.value 1 [(0xFE00, 2)]) :: [] := by decide
theorem witness_device_error :
    Memory.wf (atDev 0x3001 [] [.answer .error]).mem = true ∧
      (atDev 0x3001 [] [.answer .error]).params.deviceAddrs.contains 0xFE02 = true ∧
      (atDev 0x3001 [] [.answer .error]).devIn = List.replicate 0 .retry ++ .answer .error :: [] := by decide
theorem witness_device_cell_write :
    Memory.wf (atDev 0x3001 [] [.answer (.value 5 [])]).mem = true ∧
      (atDev 0x3001 [] [.answer (.value 5 [])]).params.deviceAddrs.contains 0xFE00 = true ∧
      (atDev 0x3001 [] [.answer (.value 5 [])]).devIn = .answer (.value 5 []) :: [] := by decide
theorem witness_ldi_two_requests :
    (atDev 0xFE02 [] [.answer (.value 0xFE02 []), .answer (.value 0x61 [])]).params.deviceAddrs.contains
        ((atDev 0xFE02 [] [.answer (.value 0xFE02 []), .answer (.value 0x61 [])]).pc +
          BitVec.ofInt 16 (-2 : BitVec 9).toInt) = true ∧
      (atDev 0xFE02 [] [.answer (.value 0xFE02 []), .answer (.value 0x61 [])]).params.deviceAddrs.contains 0xFE02 = true ∧
      (atDev 0xFE02 [] [.answer (.value 0xFE02 []), .answer (.value 0x61 [])]).devIn =
        .answer (.value 0xFE02 []) :: .answer (.value 0x61 []) :: [] := by decide

/-- The fetch of the word a state holds at `pc`, in the form the statements about steps use. -/
theorem witness_step :
    (at_ 0xFFFF [(0xFFFF, 0x1042)]).control = .idle ∧ (at_ 0xFFFF [(0xFFFF, 0x1042)]).run = .running ∧
      (∃ s1, memRead (at_ 0xFFFF [(0xFFFF, 0x1042)]).pc
        { at_ 0xFFFF [(0xFFFF, 0x1042)] with ctl := (at_ 0xFFFF [(0xFFFF, 0x1042)]).ctl.tail } = .value 0x1042 s1) ∧
      decode 0x1042 = .addReg 0 1 0 2 ∧
      (Instr.addReg 0 1 0 2).wf (at_ 0xFFFF [(0xFFFF, 0x1042)]).params.strictUnusedBits = true :=
  ⟨rfl, rfl, ⟨_, rfl⟩, by decide, by decide⟩
theorem witness_fetch_error :
    (atDev 0xFE00 [] [.answer .error]).control = .idle ∧ (atDev 0xFE00 [] [.answer .error]).run = .running ∧
      ∃ s1, memRead (atDev 0xFE00 [] [.answer .error]).pc
        { atDev 0xFE00 [] [.answer .error] with ctl := (atDev 0xFE00 [] [.answer .error]).ctl.tail } = .error s1 :=
  ⟨rfl, rfl, _, rfl⟩
theorem witness_strict_refused :
    (atStrict 0x105A).control = .idle ∧ (atStrict 0x105A).run = .running ∧
      (∃ s1, memRead (atStrict 0x105A).pc { atStrict 0x105A with ctl := (atStrict 0x105A).ctl.tail } =
        .value 0x105A s1) ∧
      (atStrict 0x105A).params.strictUnusedBits = true ∧ nonCanonicalWord 0x105A :=
  ⟨rfl, rfl, ⟨_, rfl⟩, rfl, by unfold nonCanonicalWord; decide⟩
theorem witness_strict_accepted :
    (atStrict 0x92BF).control = .idle ∧ (atStrict 0x92BF).run = .running ∧
      (∃ s1, memRead (atStrict 0x92BF).pc { atStrict 0x92BF with ctl := (atStrict 0x92BF).ctl.tail } =
        .value 0x92BF s1) ∧
      (atStrict 0x92BF).params.strictUnusedBits = true ∧ ¬ nonCanonicalWord 0x92BF :=
  ⟨rfl, rfl, ⟨_, rfl⟩, rfl, by unfold nonCanonicalWord; decide⟩
theorem witness_not_strict : (at_ 0xFFFF [(0xFFFF, 0x1042)]).params.strictUnusedBits = false := rfl
theorem witness_zero_word :
    (at_ 0xFFFF []).control = .idle ∧ (at_ 0xFFFF []).run = .running ∧
      (at_ 0xFFFF []).params.deviceAddrs.contains (at_ 0xFFFF []).pc = false ∧
      Memory.read (at_ 0xFFFF []).mem (at_ 0xFFFF []).pc = 0x0000 := by decide
theorem witness_stop : (atControl .stop).run = .running ∧ (atControl .stop).control = .stop := by decide
theorem witness_terminal :
    ({ State.reset with run := .halted } : State).run ≠ .running ∧
      ∀ image, ({ State.reset with run := .halted } : State).control ≠ .reset image :=
  ⟨by decide, fun _ h => by cases h⟩
theorem witness_terminal_reset :
    ({ atControl (.reset []) with run := .stopped } : State).run ≠ .running ∧
      ({ atControl (.reset []) with run := .stopped } : State).control = .reset [] := by decide
theorem witness_reset : (atControl (.reset [(0x3000, 1), (0x3000, 2)])).control = .reset [(0x3000, 1), (0x3000, 2)] := rfl

theorem witness_step_canonical :
    Memory.wf (at_ 0x3000 [(0x3000, 0x3203)]).mem = true ∧ ∃ t, step (at_ 0x3000 [(0x3000, 0x3203)]) = .next t :=
  ⟨by decide, _, rfl⟩
theorem witness_step_one_hot :
    OneHot (at_ 0x3000 [(0x3000, 0x1225)]).cond ∧ ∃ t, step (at_ 0x3000 [(0x3000, 0x1225)]) = .next t :=
  ⟨.inr (.inl rfl), _, rfl⟩
theorem witness_step_explained :
    FaultExplained (at_ 0x3000 [(0x3000, 0x8000)]) ∧ ∃ t, step (at_ 0x3000 [(0x3000, 0x8000)]) = .next t :=
  ⟨trivial, _, rfl⟩
theorem witness_faulting_step :
    Memory.wf (at_ 0x3000 [(0x3000, 0x8000)]).mem = true ∧ (at_ 0x3000 [(0x3000, 0x8000)]).run = .running ∧
      ∃ t, step (at_ 0x3000 [(0x3000, 0x8000)]) = .next t ∧ t.run = .faulted ⟨.badOpcode, 0x8000, 0x3000⟩ :=
  ⟨by decide, rfl, _, rfl, by decide⟩
theorem witness_halting_step :
    (atTrap 0xF025 [.answer (.halt (fileOf 0 0) .z)]).run ≠ .halted ∧
      ∃ t, step (atTrap 0xF025 [.answer (.halt (fileOf 0 0) .z)]) = .next t ∧ t.run = .halted :=
  ⟨by decide, _, rfl, rfl⟩
theorem witness_register_writers :
    isTrap (.jsr 5) = false ∧ writtenReg (.jsr 5) ≠ some 6 ∧ ∃ t, exec (.jsr 5) (at_ 0x3001 []) = .next t :=
  ⟨rfl, by decide, _, rfl⟩
theorem witness_pc_writers : writesPc (.st 1 3) = false ∧ ∃ t, exec (.st 1 3) (at_ 0x3001 []) = .next t :=
  ⟨rfl, _, rfl⟩
theorem witness_flag_writers_other :
    updatesFlags (.st 1 3) = false ∧ isTrap (.st 1 3) = false ∧ ∃ t, exec (.st 1 3) (at_ 0x3001 []) = .next t :=
  ⟨rfl, rfl, _, rfl⟩
theorem witness_flag_writers_result :
    updatesFlags (.lea 1 3) = true ∧ (at_ 0x3001 []).run = .running ∧
      ∃ t, exec (.lea 1 3) (at_ 0x3001 []) = .next t ∧ t.run = .running := ⟨rfl, rfl, _, rfl, rfl⟩
theorem witness_memory_writers :
    Memory.wf (at_ 0x3000 [(0x3000, 0x3203)]).mem = true ∧ (at_ 0x3000 [(0x3000, 0x3203)]).control = .idle ∧
      (at_ 0x3000 [(0x3000, 0x3203)]).run = .running ∧
      (at_ 0x3000 [(0x3000, 0x3203)]).params.deviceAddrs.contains 0x3005 = false ∧
      (∃ t, step (at_ 0x3000 [(0x3000, 0x3203)]) = .next t) ∧
      ∃ s1, memRead (at_ 0x3000 [(0x3000, 0x3203)]).pc
          { at_ 0x3000 [(0x3000, 0x3203)] with ctl := (at_ 0x3000 [(0x3000, 0x3203)]).ctl.tail } = .value 0x3203 s1 ∧
        ∀ ea, storeTarget (decode 0x3203) { s1 with ir := 0x3203, pc := (at_ 0x3000 [(0x3000, 0x3203)]).pc + 1 } =
          some ea → (0x3005 : Word) ≠ ea := by
  refine ⟨by decide, rfl, rfl, by decide, ⟨_, rfl⟩, _, rfl, fun ea h => ?_⟩
  have e : ea = 0x3004 := (Option.some.inj h).symm
  rw [e]
  decide
theorem witness_ports_asked :
    ∃ t, exec (.ld 0 0) (atDev 0xFE02 [] [.answer (.value 1 [])]) = .next t ∧ t.sent = [.devread 0xFE02] :=
  ⟨_, rfl, rfl⟩
/-- ST of R1 to the next instruction's cell; that cell is fetched at once. -/
def storeAhead : State := (at_ 0x3000 [(0x3000, 0x3200)]).setReg 1 0x1225

theorem witness_store_next_fetch :
    Memory.wf storeAhead.mem = true ∧ storeAhead.control = .idle ∧ storeAhead.run = .running ∧
      (∃ s1, memRead storeAhead.pc { storeAhead with ctl := storeAhead.ctl.tail } = .value 0x3200 s1 ∧
        storeTarget (decode 0x3200) { s1 with ir := 0x3200, pc := storeAhead.pc + 1 } = some 0x3001) ∧
      storedReg (decode 0x3200) = some 1 ∧ storeAhead.params.deviceAddrs.contains 0x3001 = false ∧
      ∃ t, step storeAhead = .next t ∧ reachesWithoutWriting 0x3001 0 t t ∧ t.pc = 0x3001 :=
  ⟨by decide, rfl, rfl, ⟨_, rfl, by decide⟩, by decide, by decide, _, rfl, rfl, by decide⟩

/-- STI of R1 to its own cell 0xFFFF, through the pointer at 0x0002. -/
def storeHere : State := (at_ 0xFFFF [(0xFFFF, 0xB202), (0x0002, 0xFFFF)]).setReg 1 0x1225

theorem witness_store_own_cell :
    Memory.wf storeHere.mem = true ∧ storeHere.control = .idle ∧ storeHere.run = .running ∧
      (∃ s1, memRead storeHere.pc { storeHere with ctl := storeHere.ctl.tail } = .value 0xB202 s1 ∧
        storeTarget (decode 0xB202) { s1 with ir := 0xB202, pc := storeHere.pc + 1 } = some 0xFFFF) ∧
      storedReg (decode 0xB202) = some 1 ∧ ∃ t, step storeHere = .next t :=
  ⟨by decide, rfl, rfl, ⟨_, rfl, by decide⟩, by decide, _, rfl⟩

/-- The store ahead of a no-op: STR of R1 to 0x3002, and the step between does not write that cell. -/
def storeTwoAhead : State := ((at_ 0x3000 [(0x3000, 0x7280)]).setReg 1 0x1225).setReg 2 0x3002

theorem witness_store_later_fetch :
    Memory.wf storeTwoAhead.mem = true ∧ storeTwoAhead.control = .idle ∧ storeTwoAhead.run = .running ∧
      (∃ s1, memRead storeTwoAhead.pc { storeTwoAhead with ctl := storeTwoAhead.ctl.tail } = .value 0x7280 s1 ∧
        storeTarget (decode 0x7280) { s1 with ir := 0x7280, pc := storeTwoAhead.pc + 1 } = some 0x3002) ∧
      storedReg (decode 0x7280) = some 1 ∧ storeTwoAhead.params.deviceAddrs.contains 0x3002 = false ∧
      ∃ t u, step storeTwoAhead = .next t ∧ reachesWithoutWriting 0x3002 1 t u ∧ u.pc = 0x3002 := by
  refine ⟨by decide, rfl, rfl, ⟨_, rfl, by decide⟩, by decide, by decide, _, _, rfl, ⟨?_, _, rfl, rfl⟩, by decide⟩
  rintro (⟨image, h⟩ | ⟨-, -, w, s1, h, hs⟩)
  · cases h
  · cases h
    revert hs
    decide

theorem witness_unanswered_fetch :
    (atDev 0xFE00 [] [.retry, .retry]).control = .idle ∧ (atDev 0xFE00 [] [.retry, .retry]).run = .running ∧
      (atDev 0xFE00 [] [.retry, .retry]).params.deviceAddrs.contains (atDev 0xFE00 [] [.retry, .retry]).pc = true ∧
      (atDev 0xFE00 [] [.retry, .retry]).devIn = List.replicate 2 .retry := by decide
theorem witness_unanswered_read :
    firstRead (.ldi 0 (-2)) (atDev 0xFE02 [] []) = some 0xFE00 ∧
      (atDev 0xFE02 [] []).params.deviceAddrs.contains 0xFE00 = true ∧
      (atDev 0xFE02 [] []).devIn = List.replicate 0 .retry := by decide
theorem witness_unanswered_second_read :
    ∃ s1, memRead (pcRelative (-2 : BitVec 9) (atDev 0xFE02 [] [.answer (.value 0xFE02 []), .retry]))
        (atDev 0xFE02 [] [.answer (.value 0xFE02 []), .retry]) = .value 0xFE02 s1 ∧
      (atDev 0xFE02 [] [.answer (.value 0xFE02 []), .retry]).params.deviceAddrs.contains 0xFE02 = true ∧
      s1.devIn = List.replicate 1 .retry := ⟨_, rfl, by decide, rfl⟩
theorem witness_unanswered_second_read_ordinary_pointer :
    ∃ s1, memRead (pcRelative (1 : BitVec 9) (atDev 0x3001 [(0x3002, 0xFE00)] []))
        (atDev 0x3001 [(0x3002, 0xFE00)] []) = .value 0xFE00 s1 ∧
      (atDev 0x3001 [(0x3002, 0xFE00)] []).params.deviceAddrs.contains 0xFE00 = true ∧
      s1.devIn = List.replicate 0 .retry := ⟨_, rfl, by decide, rfl⟩
theorem witness_unanswered_trap : (atTrap 0xF020 [.retry]).trapIn = List.replicate 1 .retry := rfl
theorem witness_step_requests :
    (atDev 0xFE00 [] [.answer (.value 0x2001 []), .answer (.value 7 [])]).control = .idle ∧
      (atDev 0xFE00 [] [.answer (.value 0x2001 []), .answer (.value 7 [])]).run = .running ∧
      shows (step (atDev 0xFE00 [] [.answer (.value 0x2001 []), .answer (.value 7 [])])) (fun t => t.sent) =
        some [.devread 0xFE02, .devread 0xFE00] := by decide
theorem witness_step_sends_nothing :
    ¬ ((atControl .stop).control = .idle ∧ (atControl .stop).run = .running) ∧
      ∃ t, step (atControl .stop) = .next t := ⟨by decide, _, rfl⟩
theorem witness_next_state : ∃ t, exec (.addImm 1 0 5) (at_ 0x3001 []) = .next t := ⟨_, rfl⟩
theorem witness_parameters : ∃ t, step (atControl (.reset [])) = .next t := ⟨_, rfl⟩

end Sys2Proof.Tests
end

section
/-! What every instruction and every step leaves in memory, and that a store is seen by every later fetch
(spec/20_memory.md R45 to R53). -/

namespace Sys2Proof.Machine

open Sys2Proof.Claims

/-- From `s` to `t` the parameters stay and, on a canonical memory, the canonical form stays and no cell changes but
device cells and the cells of `writes`. -/
structure MemoryFrame (writes : Word → Prop) (s t : State) : Prop where
  params : t.params = s.params
  wf : Memory.wf s.mem = true → Memory.wf t.mem = true
  read : Memory.wf s.mem = true → ∀ a, s.params.deviceAddrs.contains a = false → ¬ writes a →
    Memory.read t.mem a = Memory.read s.mem a

namespace MemoryFrame

variable {writes writes' : Word → Prop} {s t u : State}

/-- An update that touches neither the memory nor the parameters. -/
theorem of_eq (hm : t.mem = s.mem) (hp : t.params = s.params) : MemoryFrame writes s t where
  params := hp
  wf h := by rwa [hm]
  read _ _ _ _ := by rw [hm]

theorem mono (h : MemoryFrame writes s t) (hw : ∀ a, writes a → writes' a) : MemoryFrame writes' s t where
  params := h.params
  wf := h.wf
  read hm a ha hn := h.read hm a ha fun hwa => hn (hw a hwa)

theorem trans (h : MemoryFrame writes s t) (h' : MemoryFrame writes t u) : MemoryFrame writes s u where
  params := h'.params.trans h.params
  wf hm := h'.wf (h.wf hm)
  read hm a ha hn := (h'.read (h.wf hm) a (by rwa [h.params]) hn).trans (h.read hm a ha hn)

end MemoryFrame

/-- A write changes the one cell it names (R47, R50). -/
theorem memWrite_memoryFrame {writes : Word → Prop} {ea : Word} (h : writes ea) (s : State) (v : Word) :
    MemoryFrame writes s (s.memWrite ea v) where
  params := rfl
  wf hm := Memory.wf_write hm ea v
  read hm a _ hn := by
    have hne : a ≠ ea := fun e => hn (e ▸ h)
    simp [Memory.read_write hm, hne]

theorem memRead_value_memoryFrame {writes : Word → Prop} {a v : Word} {s t : State} (h : memRead a s = .value v t) :
    MemoryFrame writes s t where
  params := by obtain ⟨m, d, q, rfl⟩ := memRead_value_eq h; rfl
  wf hm := (memRead_value h hm).1
  read hm b hb _ := by
    obtain ⟨-, -, -, -, -, -, hread⟩ := memRead_value h hm
    exact hread b hb

theorem memRead_error_memoryFrame {writes : Word → Prop} {a : Word} {s t : State} (h : memRead a s = .error t) :
    MemoryFrame writes s t := by
  obtain ⟨hmem, ⟨-, -, -, ⟨-, -, hparams, -⟩, -⟩, -⟩ := memRead_error h
  exact .of_eq hmem hparams

theorem Reads.memoryFrame {writes : Word → Prop} {i : Instr} {s t : State} (h : Reads i s t) :
    MemoryFrame writes s t := by
  induction h with
  | none => exact .of_eq rfl rfl
  | one hi h hr ih => exact ih.trans (memRead_value_memoryFrame hr)

/-- A trap answer writes no memory cell (R123). -/
@[simp] theorem mem_applyTrapAnswer (x : TrapAnswer) (s : State) : (applyTrapAnswer x s).mem = s.mem := by
  cases x <;> rfl

@[simp] theorem params_applyTrapAnswer (x : TrapAnswer) (s : State) :
    (applyTrapAnswer x s).params = s.params := by
  cases x <;> rfl

/-- An instruction writes no ordinary cell but the one it stores to. -/
theorem exec_memoryFrame {i : Instr} {s t : State} (h : exec i s = .next t) :
    MemoryFrame (fun a => storeTarget i s = some a) s t := by
  cases exec_effect h with
  | result hw hf hr => exact hr.memoryFrame.trans (.of_eq rfl rfl)
  | stay hp => exact .of_eq rfl rfl
  | jump hp => exact .of_eq rfl rfl
  | call hp hw => exact .of_eq rfl rfl
  | store ht hr => exact hr.memoryFrame.trans (memWrite_memoryFrame ht _ _)
  | deviceError hi hr he =>
    exact (hr.memoryFrame.trans (memRead_error_memoryFrame he)).trans (.of_eq rfl rfl)
  | trap hi hc =>
    obtain ⟨d, n, rfl⟩ := trapCall_answer hc
    exact .of_eq (by simp) (by simp)
  | badOpcode hi => exact .of_eq rfl rfl

/-- The state after a fetch, in the form the statements write it. -/
theorem fetched_eq {s s1 : State} {w : Word} (h : memRead s.pc s.popControl = .value w s1) :
    s1.fetched w = { s1 with ir := w, pc := s.pc + 1 } := by
  obtain ⟨m, d, q, rfl⟩ := memRead_value_eq h
  rfl

/-- A fetch writes no ordinary cell (R81, R82). -/
theorem fetched_memoryFrame {writes : Word → Prop} {s s1 : State} {w : Word}
    (h : memRead s.pc s.popControl = .value w s1) : MemoryFrame writes s (s1.fetched w) :=
  have hpop : MemoryFrame writes s s.popControl := .of_eq rfl rfl
  (hpop.trans (memRead_value_memoryFrame h)).trans (.of_eq rfl rfl)

/-- A step writes no ordinary cell but those `writesCell` names. -/
theorem step_memoryFrame {s t : State} (h : step s = .next t) : MemoryFrame (fun a => writesCell a s) s t := by
  have hpop : MemoryFrame (fun a => writesCell a s) s s.popControl := .of_eq rfl rfl
  obtain ⟨image, hc, rfl⟩ | ⟨-, rfl⟩ | ⟨-, -, rfl⟩ | ⟨-, -, s1, hfetch, rfl⟩ | ⟨hc, hr, w, s1, hfetch, hrun⟩ :=
    step_cases h
  · exact ⟨rfl, fun _ => Memory.wf_ofImage image, fun _ _ _ hn => absurd (.inl ⟨image, hc⟩) hn⟩
  · exact .of_eq (by simp [State.takeStop_eq]) (by simp [State.takeStop_eq])
  · exact hpop
  · exact (hpop.trans (memRead_error_memoryFrame hfetch)).trans (.of_eq rfl rfl)
  · refine (fetched_memoryFrame hfetch).trans ?_
    obtain ⟨-, hexec⟩ | ⟨-, rfl⟩ := hrun
    · refine (exec_memoryFrame hexec).mono fun a ha => .inr ⟨hc, hr, w, s1, hfetch, ?_⟩
      rwa [← fetched_eq hfetch]
    · exact .of_eq rfl rfl

/-- The memory is canonical, and the cell `ea` is no device cell and holds `v`. -/
structure HoldsWord (ea v : Word) (s : State) : Prop where
  wf : Memory.wf s.mem = true
  ordinary : s.params.deviceAddrs.contains ea = false
  read : Memory.read s.mem ea = v

/-- An ordinary cell keeps its word over a step that does not write it. -/
theorem HoldsWord.of_step {ea v : Word} {s t : State} (h : HoldsWord ea v s) (hn : ¬ writesCell ea s)
    (hs : step s = .next t) : HoldsWord ea v t :=
  have hf := step_memoryFrame hs
  ⟨hf.wf h.wf, by rw [hf.params]; exact h.ordinary, (hf.read h.wf ea h.ordinary hn).trans h.read⟩

/-- An ordinary cell keeps its word over any number of steps that do not write it. -/
theorem HoldsWord.of_reaches {ea v : Word} {n : Nat} {t u : State} (h : HoldsWord ea v t)
    (hr : reachesWithoutWriting ea n t u) : HoldsWord ea v u := by
  induction n generalizing t with
  | zero => exact (show u = t from hr) ▸ h
  | succ n ih =>
    obtain ⟨hn, m, hs, hrest⟩ := hr
    exact ih (h.of_step hn hs) hrest

/-- A fetch from an ordinary cell gives the word it holds (R45). -/
theorem HoldsWord.fetch {ea v : Word} {u : State} (h : HoldsWord ea v u) (hpc : u.pc = ea) :
    memRead u.pc u.popControl = .value v u.popControl := by
  obtain ⟨-, hord, hread⟩ := h
  subst hpc
  rw [memRead_ordinary (s := u.popControl) hord, State.mem_popControl, hread]

/-- A store whose address is known reads at most its pointer and writes its register there (R114 to R116). -/
theorem exec_store {i : Instr} {s : State} {ea : Word} {sr : Reg} (hs : storedReg i = some sr)
    (ht : storeTarget i s = some ea) : ∃ u, Reads i s u ∧ exec i s = .next (u.memWrite ea (u.reg sr)) := by
  cases i with
  | st r off9 => cases hs; cases ht; exact ⟨s, .none s, rfl⟩
  | str r base off6 => cases hs; cases ht; exact ⟨s, .none s, rfl⟩
  | sti r off9 =>
    cases hs
    simp only [storeTarget] at ht
    split at ht
    · rename_i hread
      cases ht
      refine ⟨_, .one rfl (.none s) hread, ?_⟩
      simp only [exec, execSti, withPointer, withRead, hread]
    · cases ht
    · cases ht
  | _ => cases hs

/-- A store has no unused bits (R67), so the dispatcher always runs it. -/
theorem dispatch_store {i : Instr} {sr : Reg} (hs : storedReg i = some sr) (s : State) :
    dispatch i s = exec i s := by
  have hwf : i.wf s.params.strictUnusedBits = true := by
    cases i with
    | st | str | sti => simp [Instr.wf, Instr.canonical]
    | _ => cases hs
  simp only [dispatch, hwf, if_true]

/-- A step that fetches a store writes its register to the store's address, in a state that differs from the one
before by the fetch and the pointer's read only (R53, R81, R82). -/
theorem step_store {writes : Word → Prop} {s s1 : State} {w ea : Word} {sr : Reg} (hc : s.control = .idle)
    (hr : s.run = .running) (hfetch : memRead s.pc s.popControl = .value w s1) (hs : storedReg (decode w) = some sr)
    (ht : storeTarget (decode w) (s1.fetched w) = some ea) :
    ∃ u, step s = .next (u.memWrite ea (s.reg sr)) ∧ u.ir = w ∧ u.pc = s.pc + 1 ∧ MemoryFrame writes s u := by
  obtain ⟨u, hreads, hexec⟩ := exec_store hs ht
  have hframe : MemoryFrame writes s u := (fetched_memoryFrame hfetch).trans hreads.memoryFrame
  have hfields : u.ir = w ∧ u.pc = s.pc + 1 ∧ u.reg sr = s.reg sr := by
    obtain ⟨m1, d1, q1, rfl⟩ := memRead_value_eq hfetch
    obtain ⟨m2, d2, q2, rfl⟩ := hreads.eq
    exact ⟨rfl, rfl, rfl⟩
  obtain ⟨hir, hpc, hreg⟩ := hfields
  refine ⟨u, ?_, hir, hpc, hframe⟩
  rw [step_fetched hc hr hfetch, dispatch_store hs, hexec, hreg]

/-- Settles O53. The stored word stands in its cell after the step and after every further step that does not write
the cell, and a fetch from an ordinary cell reads it there. -/
theorem storeIsSeenByTheNextFetch : Obligations.StoreIsSeenByTheNextFetch := by
  unfold Obligations.StoreIsSeenByTheNextFetch
  intro s s1 t w ea sr hm hc hr hfetch hstep htarget hsr
  rw [← fetched_eq hfetch] at htarget
  obtain ⟨u, hstore, hir, hpc, hframe⟩ := step_store (writes := fun _ => False) hc hr hfetch hsr htarget
  obtain rfl : u.memWrite ea (s.reg sr) = t := Host.Outcome.next.inj (hstore.symm.trans hstep)
  have hcell : Memory.read (u.memWrite ea (s.reg sr)).mem ea = s.reg sr := by
    simp [Memory.read_write (hframe.wf hm)]
  refine ⟨hir, hpc, hcell, fun hord n v hreach hv => ?_⟩
  have hholds : HoldsWord ea (s.reg sr) (u.memWrite ea (s.reg sr)) :=
    ⟨Memory.wf_write (hframe.wf hm) ea _, hframe.params ▸ hord, hcell⟩
  exact (hholds.of_reaches hreach).fetch hv

end Sys2Proof.Machine
end

section
/-! What the flag unit writes and what the sign extension keeps (spec/40_dispatch.md R85, R86). -/

namespace Sys2Proof.Machine

/-! ## The flag unit -/

/-- Bit 15 is the sign of the word's signed value (R86). -/
theorem getLsbD_15_iff (v : Word) : v.getLsbD 15 = true ↔ v.toInt < 0 := by
  have h : v.msb = v.getLsbD 15 := BitVec.msb_eq_getLsbD_last v
  rw [← h, BitVec.msb_eq_toInt, decide_eq_true_iff]

theorem eq_zero_iff_toInt (v : Word) : v = 0x0000 ↔ v.toInt = 0 := BitVec.toInt_inj.symm

/-- The flag unit, which looks at bits, writes the flag of the signed value (R25, R86). -/
theorem flagBits_flagOf (v : Word) : flagBits (flagOf v) = signedFlags v := by
  simp only [flagOf, signedFlags, eq_zero_iff_toInt, getLsbD_15_iff]
  by_cases hz : v.toInt = 0
  · simp [hz]
  · by_cases hn : v.toInt < 0 <;> simp [hz, hn]

/-- Each flag has one bit of its own (R25, R26). -/
theorem oneHot_flagBits (f : Flag) : OneHot (flagBits f) := by
  cases f with
  | n => exact .inl rfl
  | z => exact .inr (.inl rfl)
  | p => exact .inr (.inr rfl)

/-- Settles O20. The flags are those of the signed value, and `setcc` is an update of `cond` alone. -/
theorem setccSetsSignedFlag : Obligations.SetccSetsSignedFlag := by
  unfold Obligations.SetccSetsSignedFlag
  intro s v
  refine ⟨?_, oneHot_flagBits (flagOf v), getLsbD_15_iff v, eq_zero_iff_toInt v⟩
  rw [← flagBits_flagOf]
  rfl

/-! ## The sign-extension unit -/

section
variable {n : Nat} (v : BitVec n)

/-- The low bits of `sext` are the field's (R85). -/
theorem getLsbD_sext_of_lt {k : Nat} (hn : n ≤ 16) (hk : k < n) : (sext v).getLsbD k = v.getLsbD k := by
  have hk16 : k < 16 := by omega
  simp only [sext, BitVec.getLsbD_signExtend, hk, hk16, decide_true, Bool.true_and, if_true]

/-- Above the field, every bit of `sext` is the field's top bit (R85). -/
theorem getLsbD_sext_of_ge {k : Nat} (hn : n ≤ k) (hk : k < 16) : (sext v).getLsbD k = v.getLsbD (n - 1) := by
  have hlt : ¬ k < n := by omega
  simp only [sext, BitVec.getLsbD_signExtend, hlt, hk, decide_true, Bool.true_and, if_false,
    BitVec.msb_eq_getLsbD_last]

/-- `sext` keeps the signed value of a field that fits a word (R85). -/
theorem toInt_sext (hn : n ≤ 16) : (sext v).toInt = v.toInt := BitVec.toInt_signExtend_of_le hn

/-- The signed value of a field by its top bit (R85). -/
theorem toInt_eq_of_topBit :
    v.toInt = if v.getLsbD (n - 1) then (v.toNat : Int) - 2 ^ n else v.toNat := by
  rw [BitVec.toInt_eq_msb_cond, BitVec.msb_eq_getLsbD_last]
  push_cast
  rfl

end

/-- Settles O21. Every field width of the encodings is at most 16, and the statement holds for all such widths. -/
theorem signExtensionKeepsSignedValue : Obligations.SignExtensionKeepsSignedValue := by
  unfold Obligations.SignExtensionKeepsSignedValue
  intro n hwidth v
  have hn : n ≤ 16 := by omega
  exact ⟨fun _ hk => getLsbD_sext_of_lt v hn hk, fun _ hnk hk => getLsbD_sext_of_ge v hnk hk, toInt_sext v hn,
    toInt_eq_of_topBit v⟩

end Sys2Proof.Machine
end

section
/-! The decoder on the words of ADD, AND and NOT (spec/30_encoding.md R61, R62). -/

namespace Sys2Proof

/-- The opcode is the word's top four bits (R65). -/
theorem opcodeOf_eq_of_getLsbD {w w' : Word} (h : ∀ k, 12 ≤ k → w.getLsbD k = w'.getLsbD k) :
    opcodeOf w = opcodeOf w' := by
  simp only [opcodeOf, h, Nat.reduceLeDiff]

/-! ## Words of an opcode, two register fields and six low bits -/

section
variable (op : BitVec 4) (dr sr : Reg) (low : BitVec 6)

theorem opcodeOf_twoRegisters : opcodeOf (op ++ dr ++ sr ++ low) = opcodeOf (op ++ 0#12) := by
  apply opcodeOf_eq_of_getLsbD
  intro k hk
  have h6 : ¬ k < 6 := by omega
  have h9 : ¬ k - 6 < 3 := by omega
  have h12 : ¬ k - 6 - 3 < 3 := by omega
  rw [BitVec.getLsbD_append, BitVec.getLsbD_append, BitVec.getLsbD_append, BitVec.getLsbD_append, if_neg h6,
    if_neg h9, if_neg h12, if_neg (by omega), Nat.sub_sub, Nat.sub_sub]

theorem fieldDR_twoRegisters : fieldDR (op ++ dr ++ sr ++ low) = dr := by
  rw [fieldDR, BitVec.extractLsb'_append_eq_of_le (by decide), BitVec.extractLsb'_append_eq_of_le (by decide)]
  exact BitVec.extractLsb'_append_eq_right

theorem fieldSR1_twoRegisters : fieldSR1 (op ++ dr ++ sr ++ low) = sr := by
  rw [fieldSR1, BitVec.extractLsb'_append_eq_of_le (by decide)]
  exact BitVec.extractLsb'_append_eq_right

theorem getLsbD_twoRegisters {k : Nat} (hk : k < 6) :
    (op ++ dr ++ sr ++ low : Word).getLsbD k = low.getLsbD k := by
  rw [BitVec.getLsbD_append, if_pos hk]

theorem extractLsb'_twoRegisters {start len : Nat} (h : start + len ≤ 6) :
    (op ++ dr ++ sr ++ low : Word).extractLsb' start len = low.extractLsb' start len :=
  BitVec.extractLsb'_append_eq_of_add_le h

end

section
variable (dr sr : Reg)

/-- ADD takes its second operand as bit 5 says (R90, R91). -/
theorem decode_add (low : BitVec 6) :
    decode (0b0001#4 ++ dr ++ sr ++ low) =
      if low.getLsbD 5 then .addImm dr sr (low.extractLsb' 0 5)
      else .addReg dr sr (low.extractLsb' 3 2) (low.extractLsb' 0 3) := by
  have hop : opcodeOf (0b0001#4 ++ dr ++ sr ++ low) = .add := opcodeOf_twoRegisters ..
  simp only [decode, hop, fieldDR_twoRegisters, fieldSR1_twoRegisters, getLsbD_twoRegisters,
    extractLsb'_twoRegisters, Nat.reduceLeDiff, Nat.reduceLT, Nat.reduceAdd]

/-- AND takes its second operand as bit 5 says (R92, R93). -/
theorem decode_and (low : BitVec 6) :
    decode (0b0101#4 ++ dr ++ sr ++ low) =
      if low.getLsbD 5 then .andImm dr sr (low.extractLsb' 0 5)
      else .andReg dr sr (low.extractLsb' 3 2) (low.extractLsb' 0 3) := by
  have hop : opcodeOf (0b0101#4 ++ dr ++ sr ++ low) = .and := opcodeOf_twoRegisters ..
  simp only [decode, hop, fieldDR_twoRegisters, fieldSR1_twoRegisters, getLsbD_twoRegisters,
    extractLsb'_twoRegisters, Nat.reduceLeDiff, Nat.reduceLT, Nat.reduceAdd]

theorem decode_not (low : BitVec 6) : decode (0b1001#4 ++ dr ++ sr ++ low) = .not dr sr low := by
  have hop : opcodeOf (0b1001#4 ++ dr ++ sr ++ low) = .not := opcodeOf_twoRegisters ..
  simp only [decode, hop, fieldDR_twoRegisters, fieldSR1_twoRegisters, fieldLow6, extractLsb'_twoRegisters,
    Nat.reduceLeDiff, Nat.reduceAdd, BitVec.extractLsb'_eq_self]

end

/-! ## The second operand of ADD and AND -/

section
variable (u : BitVec 2) (sr2 : Reg) (imm5 : BitVec 5)

theorem getLsbD_5_registerOperand : (0b0#1 ++ u ++ sr2 : BitVec 6).getLsbD 5 = false := by
  rw [BitVec.getLsbD_append, BitVec.getLsbD_append]; rfl

theorem unused_registerOperand : (0b0#1 ++ u ++ sr2 : BitVec 6).extractLsb' 3 2 = u := by
  rw [BitVec.extractLsb'_append_eq_of_le (by decide)]
  exact BitVec.extractLsb'_append_eq_right

theorem sr2_registerOperand : (0b0#1 ++ u ++ sr2 : BitVec 6).extractLsb' 0 3 = sr2 :=
  BitVec.extractLsb'_append_eq_right

theorem getLsbD_5_immediateOperand : (0b1#1 ++ imm5 : BitVec 6).getLsbD 5 = true := by
  rw [BitVec.getLsbD_append]; rfl

theorem imm5_immediateOperand : (0b1#1 ++ imm5 : BitVec 6).extractLsb' 0 5 = imm5 :=
  BitVec.extractLsb'_append_eq_right

end

/-- The low six bits of the register form as one field. -/
theorem append_registerOperand (top : BitVec 10) (u : BitVec 2) (sr2 : Reg) :
    (top ++ 0b0#1 ++ u ++ sr2 : Word) = top ++ (0b0#1 ++ u ++ sr2 : BitVec 6) := by
  rw [BitVec.append_assoc, BitVec.append_assoc, BitVec.append_assoc]
  rfl

theorem append_immediateOperand (top : BitVec 10) (imm5 : BitVec 5) :
    (top ++ 0b1#1 ++ imm5 : Word) = top ++ (0b1#1 ++ imm5 : BitVec 6) := by
  rw [BitVec.append_assoc]
  rfl

theorem decode_encode_addReg (dr sr1 : Reg) (u : BitVec 2) (sr2 : Reg) :
    decode (encode (.addReg dr sr1 u sr2)) = .addReg dr sr1 u sr2 := by
  rw [encode, append_registerOperand, decode_add, getLsbD_5_registerOperand, unused_registerOperand,
    sr2_registerOperand]
  rfl

theorem decode_encode_addImm (dr sr1 : Reg) (imm5 : BitVec 5) :
    decode (encode (.addImm dr sr1 imm5)) = .addImm dr sr1 imm5 := by
  rw [encode, append_immediateOperand, decode_add, getLsbD_5_immediateOperand, imm5_immediateOperand]
  rfl

theorem decode_encode_andReg (dr sr1 : Reg) (u : BitVec 2) (sr2 : Reg) :
    decode (encode (.andReg dr sr1 u sr2)) = .andReg dr sr1 u sr2 := by
  rw [encode, append_registerOperand, decode_and, getLsbD_5_registerOperand, unused_registerOperand,
    sr2_registerOperand]
  rfl

theorem decode_encode_andImm (dr sr1 : Reg) (imm5 : BitVec 5) :
    decode (encode (.andImm dr sr1 imm5)) = .andImm dr sr1 imm5 := by
  rw [encode, append_immediateOperand, decode_and, getLsbD_5_immediateOperand, imm5_immediateOperand]
  rfl

theorem decode_encode_not (dr sr : Reg) (u : BitVec 6) : decode (encode (.not dr sr u)) = .not dr sr u :=
  decode_not dr sr u

end Sys2Proof
end

section
/-! What ADD, AND and NOT write (spec/41_operate.md R89 to R94). -/

namespace Sys2Proof.Machine

/-! ## The meanings -/

theorem exec_addReg (dr sr1 : Reg) (u : BitVec 2) (sr2 : Reg) (s : State) :
    exec (.addReg dr sr1 u sr2) s = .next (s.writeResult dr (s.reg sr1 + s.reg sr2)) := rfl

theorem exec_addImm (dr sr1 : Reg) (imm5 : BitVec 5) (s : State) :
    exec (.addImm dr sr1 imm5) s = .next (s.writeResult dr (s.reg sr1 + sext imm5)) := rfl

theorem exec_andReg (dr sr1 : Reg) (u : BitVec 2) (sr2 : Reg) (s : State) :
    exec (.andReg dr sr1 u sr2) s = .next (s.writeResult dr (s.reg sr1 &&& s.reg sr2)) := rfl

theorem exec_andImm (dr sr1 : Reg) (imm5 : BitVec 5) (s : State) :
    exec (.andImm dr sr1 imm5) s = .next (s.writeResult dr (s.reg sr1 &&& sext imm5)) := rfl

theorem exec_not (dr sr : Reg) (u : BitVec 6) (s : State) :
    exec (.not dr sr u) s = .next (s.writeResult dr (~~~ s.reg sr)) := rfl

/-- A result written leaves the value in its register, the flags of the value, and all else as before (R87). -/
theorem registerResult_writeResult (s : State) (dr : Reg) (v : Word) :
    RegisterResult dr v s (s.writeResult dr v) := by
  have hreg : (s.writeResult dr v).reg dr = v := by simp
  have hother : ∀ r : Reg, r ≠ dr → (s.writeResult dr v).reg r = s.reg r := fun r hr => by simp [hr]
  have hcond : (s.writeResult dr v).cond = signedFlags v := by rw [State.cond_writeResult, flagBits_flagOf]
  exact ⟨hreg, hother, hcond, rfl, ⟨rfl, rfl, rfl, rfl⟩, ⟨rfl, rfl, rfl⟩, fun _ => rfl⟩

/-! ## The ALU's results as numbers (R89) -/

/-- `sext` is the 16-bit word of the field's signed value (R85). -/
theorem sext_eq_ofInt {n : Nat} (v : BitVec n) : sext v = BitVec.ofInt 16 v.toInt := rfl

theorem sext_zero {n : Nat} : sext (0 : BitVec n) = 0 := by
  rw [sext_eq_ofInt, BitVec.ofNat_eq_ofNat, BitVec.toInt_zero]
  rfl

theorem add_sext {n : Nat} (x : Word) (v : BitVec n) : x + sext v = BitVec.ofInt 16 (x.toNat + v.toInt) := by
  rw [BitVec.ofInt_add, BitVec.ofInt_natCast, BitVec.ofNat_toNat, BitVec.setWidth_eq, sext_eq_ofInt]

theorem not_eq_ofNat_sub (x : Word) : ~~~ x = BitVec.ofNat 16 (65535 - x.toNat) := by
  apply BitVec.eq_of_toNat_eq
  rw [BitVec.toNat_not, BitVec.toNat_ofNat, Nat.mod_eq_of_lt (by omega)]

/-! ## The statements -/

/-- Settles O1. The ALU's sum of two words is by definition the sum of their values modulo 65536. -/
theorem addRegisterWritesSum : Obligations.AddRegisterWritesSum := by
  unfold Obligations.AddRegisterWritesSum
  intro dr sr1 u sr2 s
  refine ⟨decode_encode_addReg dr sr1 u sr2, _, exec_addReg dr sr1 u sr2 s, ?_⟩
  rw [← BitVec.add_def]
  exact registerResult_writeResult s dr _

/-- Settles O2. Where SR2 holds 0, both forms write `x[SR1] + 0`. -/
theorem addImmediateWritesSum : Obligations.AddImmediateWritesSum := by
  unfold Obligations.AddImmediateWritesSum
  intro dr sr1 imm5 s
  refine ⟨decode_encode_addImm dr sr1 imm5, ⟨_, exec_addImm dr sr1 imm5 s, ?_⟩, fun u sr2 hzero => ?_⟩
  · rw [← add_sext]
    exact registerResult_writeResult s dr _
  · rw [exec_addReg, exec_addImm, hzero, sext_zero]

/-- Settles O3. The bits of the conjunction are the conjunctions of the bits. -/
theorem andRegisterWritesConjunction : Obligations.AndRegisterWritesConjunction := by
  unfold Obligations.AndRegisterWritesConjunction
  intro dr sr1 u sr2 s
  exact ⟨decode_encode_andReg dr sr1 u sr2, s.reg sr1 &&& s.reg sr2, _, fun _ => BitVec.getLsbD_and,
    exec_andReg dr sr1 u sr2 s, registerResult_writeResult s dr _⟩

/-- Settles O4. The sign-extended field is the 16-bit word of its signed value. -/
theorem andImmediateWritesConjunction : Obligations.AndImmediateWritesConjunction := by
  unfold Obligations.AndImmediateWritesConjunction
  intro dr sr1 imm5 s
  refine ⟨decode_encode_andImm dr sr1 imm5, _, exec_andImm dr sr1 imm5 s, ?_⟩
  rw [← sext_eq_ofInt]
  exact registerResult_writeResult s dr _

/-- Settles O5. The complement of a word is 65535 minus it, with no borrow. -/
theorem notWritesComplement : Obligations.NotWritesComplement := by
  unfold Obligations.NotWritesComplement
  intro dr sr u s
  refine ⟨decode_encode_not dr sr u, _, exec_not dr sr u s, ?_⟩
  rw [← not_eq_ofNat_sub]
  exact registerResult_writeResult s dr _

end Sys2Proof.Machine
end

section
/-! The decoder on the words of BR, JMP and JSR (spec/30_encoding.md R61, R62). -/

namespace Sys2Proof

/-- The opcode of a word is that of its top four bits, whatever the twelve below them (R65). -/
theorem opcodeOf_append (op : BitVec 4) (low : BitVec 12) : opcodeOf (op ++ low) = opcodeOf (op ++ 0#12) := by
  apply opcodeOf_eq_of_getLsbD
  intro k hk
  rw [BitVec.getLsbD_append, BitVec.getLsbD_append, if_neg (by omega), if_neg (by omega)]

/-! ## Words of an opcode, a three-bit field and a nine-bit offset -/

section
variable (op : BitVec 4) (dr : BitVec 3) (off9 : BitVec 9)

theorem opcodeOf_fieldOffset : opcodeOf (op ++ dr ++ off9) = opcodeOf (op ++ 0#12) := by
  rw [BitVec.append_assoc]
  exact opcodeOf_append op (dr ++ off9)

theorem extractLsb'_fieldOffset : (op ++ dr ++ off9 : Word).extractLsb' 9 3 = dr := by
  rw [BitVec.extractLsb'_append_eq_of_le (by decide)]
  exact BitVec.extractLsb'_append_eq_right

theorem fieldOff9_fieldOffset : fieldOff9 (op ++ dr ++ off9) = off9 := BitVec.extractLsb'_append_eq_right

end

theorem decode_encode_br (nzp : BitVec 3) (off9 : BitVec 9) : decode (encode (.br nzp off9)) = .br nzp off9 := by
  have hop : opcodeOf (0b0000#4 ++ nzp ++ off9) = .br := opcodeOf_fieldOffset ..
  simp only [encode, decode, hop, extractLsb'_fieldOffset, fieldOff9_fieldOffset]

theorem decode_encode_jmp (h : BitVec 3) (base : Reg) (l : BitVec 6) :
    decode (encode (.jmp h base l)) = .jmp h base l := by
  have hop : opcodeOf (0b1100#4 ++ h ++ base ++ l) = .jmp := opcodeOf_twoRegisters ..
  have hhigh : (0b1100#4 ++ h ++ base ++ l : Word).extractLsb' 9 3 = h := fieldDR_twoRegisters ..
  have hlow : fieldLow6 (0b1100#4 ++ h ++ base ++ l) = l := BitVec.extractLsb'_append_eq_right
  simp only [encode, decode, hop, hhigh, fieldSR1_twoRegisters, hlow]

/-- Bit 11 makes opcode 4 JSR (R102). -/
theorem decode_encode_jsr (off11 : BitVec 11) : decode (encode (.jsr off11)) = .jsr off11 := by
  have hop : opcodeOf (0b0100#4 ++ 0b1#1 ++ off11) = .jsr := by
    rw [BitVec.append_assoc]
    exact opcodeOf_append 0b0100#4 (0b1#1 ++ off11)
  have hbit : (0b0100#4 ++ 0b1#1 ++ off11 : Word).getLsbD 11 = true := by
    rw [BitVec.getLsbD_append]; rfl
  have hoff : (0b0100#4 ++ 0b1#1 ++ off11 : Word).extractLsb' 0 11 = off11 := BitVec.extractLsb'_append_eq_right
  simp only [encode, decode, hop, hbit, hoff, if_true]

end Sys2Proof
end

section
/-! Where BR, JMP and JSR go and what they keep (spec/42_control.md R100 to R102). -/

namespace Sys2Proof.Machine

/-! ## The meanings -/

/-- BR, taken or not, is a write of `pc`: one not taken writes back the value `pc` has (R100). -/
theorem exec_br (nzp : BitVec 3) (off9 : BitVec 9) (s : State) :
    exec (.br nzp off9) s = .next (s.setPc (if nzp &&& s.cond ≠ 0 then pcRelative off9 s else s.pc)) := by
  simp only [exec, execBr]
  split
  · rfl
  · rfl

theorem exec_jmp (h : BitVec 3) (base : Reg) (l : BitVec 6) (s : State) :
    exec (.jmp h base l) s = .next (s.setPc (s.reg base)) := rfl

/-- The link leaves `pc` as it is, so the offset is added to the incremented `pc` (R102). -/
theorem exec_jsr (off11 : BitVec 11) (s : State) :
    exec (.jsr off11) s = .next (s.link.setPc (pcRelative off11 s)) := rfl

/-- The PC-relative target with the offset read as a signed number (R41, R85). -/
theorem pcRelative_eq_ofInt {n : Nat} (off : BitVec n) (s : State) :
    pcRelative off s = s.pc + BitVec.ofInt 16 off.toInt := rfl

/-- A write of `pc` leaves its target there and all else as before. -/
theorem jumpResult_setPc (s : State) (target : Word) : JumpResult target none s (s.setPc target) :=
  ⟨rfl, rfl, fun _ _ => rfl, rfl, ⟨rfl, rfl, rfl, rfl⟩, ⟨rfl, rfl, rfl⟩, fun _ => rfl⟩

/-- A link and a write of `pc` leave the old `pc` in R7, the target in `pc`, and all else as before, the flags among
it (R27). -/
theorem jumpResult_link_setPc (s : State) (target : Word) :
    JumpResult target (some s.pc) s (s.link.setPc target) := by
  have hlinked : (s.link.setPc target).reg 7 = s.pc := by simp
  have hother : ∀ r : Reg, r ≠ 7 → (s.link.setPc target).reg r = s.reg r := fun r hr =>
    (State.reg_link s r).trans (if_neg hr)
  exact ⟨rfl, hlinked, hother, rfl, ⟨rfl, rfl, rfl, rfl⟩, ⟨rfl, rfl, rfl⟩, fun _ => rfl⟩

/-! ## The mask and the flags (R100) -/

/-- A mask and the flags meet exactly when one of n, z and p is set in both. -/
theorem and_ne_zero_iff_common_bit (nzp cond : BitVec 3) :
    nzp &&& cond ≠ 0 ↔
      ((nzp.getLsbD 2 && cond.getLsbD 2) || (nzp.getLsbD 1 && cond.getLsbD 1) ||
        (nzp.getLsbD 0 && cond.getLsbD 0)) = true := by
  have hdisjoint : nzp &&& cond = 0 ↔ ∀ k, k < 3 → ¬ (nzp.getLsbD k && cond.getLsbD k) = true := by
    simp only [BitVec.eq_of_getLsbD_eq_iff, BitVec.getLsbD_and, BitVec.ofNat_eq_ofNat, BitVec.getLsbD_zero,
      Bool.not_eq_true]
  rw [ne_eq, hdisjoint, Nat.forall_lt_succ_left, Nat.forall_lt_succ_left, Nat.forall_lt_succ_left]
  simp only [Nat.not_lt_zero, false_imp_iff, implies_true, Bool.or_eq_true]
  tauto

/-- The full mask meets any flags that are one-hot (R26). -/
theorem full_mask_and_ne_zero {cond : BitVec 3} (h : OneHot cond) : 0b111 &&& cond ≠ 0 := by
  rcases h with rfl | rfl | rfl <;> decide

/-! ## The statements -/

/-- Settles O6. The empty mask meets no flags, and the full mask meets any that are one-hot. -/
theorem branchTakenIffMaskMeetsFlags : Obligations.BranchTakenIffMaskMeetsFlags := by
  unfold Obligations.BranchTakenIffMaskMeetsFlags
  intro nzp off9 s
  refine ⟨decode_encode_br nzp off9, _, exec_br nzp off9 s, ?_, ?_, ?_⟩
  · simp only [← and_ne_zero_iff_common_bit, ← pcRelative_eq_ofInt]
    exact jumpResult_setPc s _
  · rintro rfl
    exact if_neg (not_not.2 BitVec.zero_and)
  · rintro rfl hflags
    rw [State.pc_setPc, if_pos (full_mask_and_ne_zero hflags), pcRelative_eq_ofInt]

/-- Settles O7. RET is the word of JMP with base register 7. -/
theorem jmpLoadsProgramCounter : Obligations.JmpLoadsProgramCounter := by
  unfold Obligations.JmpLoadsProgramCounter
  intro h base l s
  exact ⟨decode_encode_jmp h base l, decode_encode_jmp 0 7 0, _, exec_jmp h base l s, jumpResult_setPc s _⟩

/-- Settles O8. The link writes R7 alone, and the jump `pc` alone. -/
theorem jsrLinksAndJumps : Obligations.JsrLinksAndJumps := by
  unfold Obligations.JsrLinksAndJumps
  intro off11 s
  exact ⟨decode_encode_jsr off11, _, exec_jsr off11 s, jumpResult_link_setPc s _⟩

end Sys2Proof.Machine
end

section
/-! The decoder on the words of the loads, the stores and LEA (spec/30_encoding.md R61, R62). -/

namespace Sys2Proof

theorem fieldDR_fieldOffset (op : BitVec 4) (dr : Reg) (off9 : BitVec 9) : fieldDR (op ++ dr ++ off9) = dr :=
  extractLsb'_fieldOffset op dr off9

theorem fieldLow6_twoRegisters (op : BitVec 4) (dr sr : Reg) (low : BitVec 6) :
    fieldLow6 (op ++ dr ++ sr ++ low) = low := BitVec.extractLsb'_append_eq_right

section
variable (r : Reg) (off9 : BitVec 9)

theorem decode_encode_ld : decode (encode (.ld r off9)) = .ld r off9 := by
  have hop : opcodeOf (0b0010#4 ++ r ++ off9) = .ld := opcodeOf_fieldOffset ..
  simp only [encode, decode, hop, fieldDR_fieldOffset, fieldOff9_fieldOffset]

theorem decode_encode_ldi : decode (encode (.ldi r off9)) = .ldi r off9 := by
  have hop : opcodeOf (0b1010#4 ++ r ++ off9) = .ldi := opcodeOf_fieldOffset ..
  simp only [encode, decode, hop, fieldDR_fieldOffset, fieldOff9_fieldOffset]

theorem decode_encode_lea : decode (encode (.lea r off9)) = .lea r off9 := by
  have hop : opcodeOf (0b1110#4 ++ r ++ off9) = .lea := opcodeOf_fieldOffset ..
  simp only [encode, decode, hop, fieldDR_fieldOffset, fieldOff9_fieldOffset]

theorem decode_encode_st : decode (encode (.st r off9)) = .st r off9 := by
  have hop : opcodeOf (0b0011#4 ++ r ++ off9) = .st := opcodeOf_fieldOffset ..
  simp only [encode, decode, hop, fieldDR_fieldOffset, fieldOff9_fieldOffset]

theorem decode_encode_sti : decode (encode (.sti r off9)) = .sti r off9 := by
  have hop : opcodeOf (0b1011#4 ++ r ++ off9) = .sti := opcodeOf_fieldOffset ..
  simp only [encode, decode, hop, fieldDR_fieldOffset, fieldOff9_fieldOffset]

end

section
variable (r base : Reg) (off6 : BitVec 6)

theorem decode_encode_ldr : decode (encode (.ldr r base off6)) = .ldr r base off6 := by
  have hop : opcodeOf (0b0110#4 ++ r ++ base ++ off6) = .ldr := opcodeOf_twoRegisters ..
  simp only [encode, decode, hop, fieldDR_twoRegisters, fieldSR1_twoRegisters, fieldLow6_twoRegisters]

theorem decode_encode_str : decode (encode (.str r base off6)) = .str r base off6 := by
  have hop : opcodeOf (0b0111#4 ++ r ++ base ++ off6) = .str := opcodeOf_twoRegisters ..
  simp only [encode, decode, hop, fieldDR_twoRegisters, fieldSR1_twoRegisters, fieldLow6_twoRegisters]

end

end Sys2Proof
end

section
/-! What the loads, the stores and LEA do (spec/43_load_store.md R109 to R116). -/

namespace Sys2Proof.Machine

/-! ## The meanings, with the offsets read as signed numbers -/

/-- The base + offset address with the offset read as a signed number (R41, R85). -/
theorem baseOffset_eq_ofInt (base : Reg) (off6 : BitVec 6) (s : State) :
    baseOffset base off6 s = s.reg base + BitVec.ofInt 16 off6.toInt := rfl

theorem exec_ld (dr : Reg) (off9 : BitVec 9) (s : State) :
    exec (.ld dr off9) s = loadFrom dr (s.pc + BitVec.ofInt 16 off9.toInt) s := rfl

theorem exec_ldr (dr base : Reg) (off6 : BitVec 6) (s : State) :
    exec (.ldr dr base off6) s = loadFrom dr (s.reg base + BitVec.ofInt 16 off6.toInt) s := rfl

theorem exec_ldi (dr : Reg) (off9 : BitVec 9) (s : State) :
    exec (.ldi dr off9) s = withRead (s.pc + BitVec.ofInt 16 off9.toInt) s (loadFrom dr) := rfl

theorem exec_lea (dr : Reg) (off9 : BitVec 9) (s : State) :
    exec (.lea dr off9) s = .next (s.writeResult dr (s.pc + BitVec.ofInt 16 off9.toInt)) := rfl

theorem exec_st (sr : Reg) (off9 : BitVec 9) (s : State) :
    exec (.st sr off9) s = .next (s.memWrite (pcRelative off9 s) (s.reg sr)) := rfl

theorem exec_str (sr base : Reg) (off6 : BitVec 6) (s : State) :
    exec (.str sr base off6) s = .next (s.memWrite (baseOffset base off6 s) (s.reg sr)) := rfl

theorem exec_sti (sr : Reg) (off9 : BitVec 9) (s : State) :
    exec (.sti sr off9) s =
      withRead (pcRelative off9 s) s fun ea s' => .next (s'.memWrite ea (s'.reg sr)) := rfl

/-! ## A data read that is answered, and one that a device error ends (R45) -/

theorem withRead_of_value {a v : Word} {s s1 : State} (k : Word → State → StepOutcome)
    (h : memRead a s = .value v s1) : withRead a s k = k v s1 := by
  rw [withRead, h]

theorem withRead_of_error {a : Word} {s s1 : State} (k : Word → State → StepOutcome)
    (h : memRead a s = .error s1) : withRead a s k = .next (s1.raise .deviceError) := by
  rw [withRead, h]

/-- A fault raised writes the run state alone (R88, R132). -/
theorem faultResult_raise (cause : FaultCause) (s : State) : FaultResult cause s (s.raise cause) :=
  ⟨rfl, fun _ => rfl, rfl, rfl, rfl, rfl, rfl, ⟨rfl, rfl, rfl⟩, fun _ => rfl⟩

/-- Whatever would follow a read, a device error on it is a DEVICE_ERROR fault with no memory cell written. -/
theorem withRead_faults {a : Word} {s s1 : State} (k : Word → State → StepOutcome) (h : memRead a s = .error s1) :
    ∃ t, withRead a s k = .next t ∧ FaultResult .deviceError s1 t ∧ ReadFrame s s1 ∧ SameMemory s t := by
  obtain ⟨hmem, hframe, -⟩ := memRead_error h
  refine ⟨_, withRead_of_error k h, faultResult_raise .deviceError s1, hframe, fun b => ?_⟩
  rw [State.mem_raise, hmem]

/-- A load whose read is answered writes the value and its flags over the state the read left (R110 to R112). -/
theorem loadFrom_loads (dr : Reg) {ea v : Word} {s s1 : State} (hm : Memory.wf s.mem = true)
    (h : memRead ea s = .value v s1) :
    ∃ t, loadFrom dr ea s = .next t ∧ RegisterResult dr v s1 t ∧ ReadFrame s s1 :=
  ⟨_, withRead_of_value _ h, registerResult_writeResult s1 dr v, (memRead_value h hm).2⟩

/-- A store on a canonical memory changes the one cell it names (R47). -/
theorem storeResult_memWrite {s : State} (hm : Memory.wf s.mem = true) (ea v : Word) :
    StoreResult ea v s (s.memWrite ea v) := by
  have hread (a : Word) : Memory.read (s.memWrite ea v).mem a = if a = ea then v else Memory.read s.mem a :=
    Memory.read_write hm ea v a
  exact ⟨(hread ea).trans (if_pos rfl), fun a ha => (hread a).trans (if_neg ha), fun _ => rfl, rfl, rfl,
    ⟨rfl, rfl, rfl, rfl⟩, ⟨rfl, rfl, rfl⟩⟩

/-! ## The statements -/

/-- Settles O10. LD is a load from the PC-relative address. -/
theorem ldLoadsAndSetsFlags : Obligations.LdLoadsAndSetsFlags := by
  unfold Obligations.LdLoadsAndSetsFlags
  intro dr off9 s hm
  rw [exec_ld]
  exact ⟨decode_encode_ld dr off9, fun _ _ hread => loadFrom_loads dr hm hread,
    fun _ herror => withRead_faults _ herror⟩

/-- Settles O11. LDR is a load from the base + offset address, computed before DR is written. -/
theorem ldrLoadsAndSetsFlags : Obligations.LdrLoadsAndSetsFlags := by
  unfold Obligations.LdrLoadsAndSetsFlags
  intro dr base off6 s hm
  rw [exec_ldr]
  exact ⟨decode_encode_ldr dr base off6, fun _ _ hread => loadFrom_loads dr hm hread,
    fun _ herror => withRead_faults _ herror⟩

/-- Settles O12. Once the pointer is read, LDI is a load from it; the frames of the two reads compose, since the
first keeps the memory canonical. -/
theorem ldiLoadsThroughPointer : Obligations.LdiLoadsThroughPointer := by
  unfold Obligations.LdiLoadsThroughPointer
  intro dr off9 s hm
  rw [exec_ldi]
  refine ⟨decode_encode_ldi dr off9, fun ea s1 v s2 hpointer hread => ?_,
    fun s1 herror => withRead_faults _ herror, fun ea s1 s2 hpointer herror => ?_⟩
  · obtain ⟨hm1, hframe1⟩ := memRead_value hpointer hm
    obtain ⟨t, hload, hresult, hframe2⟩ := loadFrom_loads dr hm1 hread
    exact ⟨t, (withRead_of_value _ hpointer).trans hload, hresult, hframe1.trans hframe2⟩
  · obtain ⟨-, hframe1⟩ := memRead_value hpointer hm
    obtain ⟨t, hload, hfault, hframe2, hmem⟩ := withRead_faults _ herror
    exact ⟨t, (withRead_of_value _ hpointer).trans hload, hfault, hframe1.trans hframe2, hmem⟩

/-- Settles O13. LEA writes the address as a result, without a read of it. -/
theorem leaWritesAddress : Obligations.LeaWritesAddress := by
  unfold Obligations.LeaWritesAddress
  intro dr off9 s
  exact ⟨decode_encode_lea dr off9, _, exec_lea dr off9 s, registerResult_writeResult s dr _⟩

/-- Settles O14. ST is one write to the array, at a device address too. -/
theorem stStoresRegister : Obligations.StStoresRegister := by
  unfold Obligations.StStoresRegister
  intro sr off9 s hm
  exact ⟨decode_encode_st sr off9, pcRelative_eq_ofInt off9 s, _, exec_st sr off9 s, storeResult_memWrite hm _ _⟩

/-- Settles O15. STR is one write to the array, its address and its word both read before it. -/
theorem strStoresRegister : Obligations.StrStoresRegister := by
  unfold Obligations.StrStoresRegister
  intro sr base off6 s hm
  exact ⟨decode_encode_str sr base off6, baseOffset_eq_ofInt base off6 s, _, exec_str sr base off6 s,
    storeResult_memWrite hm _ _⟩

/-- Settles O16. The pointer's read keeps the registers and the canonical memory, so the write after it stores
`x[SR]` in one cell. -/
theorem stiStoresThroughPointer : Obligations.StiStoresThroughPointer := by
  unfold Obligations.StiStoresThroughPointer
  intro sr off9 s hm
  rw [exec_sti]
  refine ⟨decode_encode_sti sr off9, pcRelative_eq_ofInt off9 s, fun ea s1 hpointer => ?_,
    fun s1 herror => withRead_faults _ herror⟩
  obtain ⟨hm1, hframe⟩ := memRead_value hpointer hm
  have hreg : s1.reg sr = s.reg sr := by
    obtain ⟨hregs, -⟩ := hframe
    exact hregs sr
  refine ⟨_, withRead_of_value _ hpointer, ?_, hframe⟩
  rw [hreg]
  exact storeResult_memWrite hm1 ea (s.reg sr)

end Sys2Proof.Machine
end

section
/-! The decoder on the words of RTI and of opcode 13 (spec/44_trap_and_unsupported.md R121, R122). -/

namespace Sys2Proof

theorem decode_encode_rti (x : BitVec 12) : decode (encode (.rti x)) = .rti x := by
  have hop : opcodeOf (0b1000#4 ++ x) = .rti := opcodeOf_append 0b1000#4 x
  have hx : (0b1000#4 ++ x : Word).extractLsb' 0 12 = x := BitVec.extractLsb'_append_eq_right
  simp only [encode, decode, hop, hx]

theorem decode_encode_reserved13 (x : BitVec 12) : decode (encode (.reserved13 x)) = .reserved13 x := by
  have hop : opcodeOf (0b1101#4 ++ x) = .reserved := opcodeOf_append 0b1101#4 x
  have hx : (0b1101#4 ++ x : Word).extractLsb' 0 12 = x := BitVec.extractLsb'_append_eq_right
  simp only [encode, decode, hop, hx]

end Sys2Proof
end

section
/-! What the two unsupported opcodes do (spec/44_trap_and_unsupported.md R121, R122). -/

namespace Sys2Proof.Machine

theorem exec_rti (x : BitVec 12) (s : State) : exec (.rti x) s = .next (s.raise .badOpcode) := rfl

theorem exec_reserved13 (x : BitVec 12) (s : State) : exec (.reserved13 x) s = .next (s.raise .badOpcode) := rfl

/-- Settles O18. RTI is a fault raised, and a fault raised writes the run state alone. -/
theorem rtiRaisesBadOpcode : Obligations.RtiRaisesBadOpcode := by
  unfold Obligations.RtiRaisesBadOpcode
  intro x s
  exact ⟨decode_encode_rti x, _, exec_rti x s, faultResult_raise .badOpcode s⟩

/-- Settles O19. Opcode 13 is the same fault, whatever the twelve bits not read. -/
theorem reservedOpcodeRaisesBadOpcode : Obligations.ReservedOpcodeRaisesBadOpcode := by
  unfold Obligations.ReservedOpcodeRaisesBadOpcode
  intro x s
  exact ⟨decode_encode_reserved13 x, _, exec_reserved13 x s, faultResult_raise .badOpcode s⟩

end Sys2Proof.Machine
end

section
/-! The decoder and the encoder undo each other, and a word fits the table row it decodes to and no other
(spec/30_encoding.md R61 to R68). -/

namespace Sys2Proof

/-! ## Decoding an encoded instruction -/

theorem unusedHi_encode_jsrr (h : BitVec 2) (base : Reg) (l : BitVec 6) :
    (encode (.jsrr h base l)).extractLsb' 9 2 = h := by
  rw [encode, BitVec.extractLsb'_append_eq_of_le (by decide), BitVec.extractLsb'_append_eq_of_le (by decide)]
  exact BitVec.extractLsb'_append_eq_right

theorem unusedLo_encode_jsrr (h : BitVec 2) (base : Reg) (l : BitVec 6) :
    (encode (.jsrr h base l)).extractLsb' 0 6 = l := BitVec.extractLsb'_append_eq_right

/-- Bit 11 makes opcode 4 JSRR (R103). -/
theorem decode_encode_jsrr (h : BitVec 2) (base : Reg) (l : BitVec 6) :
    decode (encode (.jsrr h base l)) = .jsrr h base l := by
  have hop : opcodeOf (0b0100#4 ++ 0b0#1 ++ h ++ base ++ l) = .jsr := by
    rw [BitVec.append_assoc, BitVec.append_assoc, BitVec.append_assoc]
    exact opcodeOf_append 0b0100#4 (0b0#1 ++ (h ++ (base ++ l)))
  have hbit : (0b0100#4 ++ 0b0#1 ++ h ++ base ++ l : Word).getLsbD 11 = false := by
    rw [BitVec.getLsbD_append, BitVec.getLsbD_append, BitVec.getLsbD_append, BitVec.getLsbD_append]
    rfl
  have hhigh : (0b0100#4 ++ 0b0#1 ++ h ++ base ++ l : Word).extractLsb' 9 2 = h := unusedHi_encode_jsrr h base l
  have hbase : fieldSR1 (0b0100#4 ++ 0b0#1 ++ h ++ base ++ l) = base := by
    rw [fieldSR1, BitVec.extractLsb'_append_eq_of_le (by decide)]
    exact BitVec.extractLsb'_append_eq_right
  have hlow : fieldLow6 (0b0100#4 ++ 0b0#1 ++ h ++ base ++ l) = l := unusedLo_encode_jsrr h base l
  simp only [encode, decode, hop, hbit, hhigh, hbase, hlow, Bool.false_eq_true, if_false]

theorem unused_encode_trap (u : BitVec 4) (vect : BitVec 8) : (encode (.trap u vect)).extractLsb' 8 4 = u := by
  rw [encode, BitVec.extractLsb'_append_eq_of_le (by decide)]
  exact BitVec.extractLsb'_append_eq_right

theorem decode_encode_trap (u : BitVec 4) (vect : BitVec 8) : decode (encode (.trap u vect)) = .trap u vect := by
  have hop : opcodeOf (0b1111#4 ++ u ++ vect) = .trap := by
    rw [BitVec.append_assoc]
    exact opcodeOf_append 0b1111#4 (u ++ vect)
  have hu : (0b1111#4 ++ u ++ vect : Word).extractLsb' 8 4 = u := unused_encode_trap u vect
  have hvect : (0b1111#4 ++ u ++ vect : Word).extractLsb' 0 8 = vect := BitVec.extractLsb'_append_eq_right
  simp only [encode, decode, hop, hu, hvect]

/-- Settles O38, instruction by instruction: each field is read back from where the encoder put it. -/
theorem decodeUndoesEncode : Obligations.DecodeUndoesEncode := by
  unfold Obligations.DecodeUndoesEncode
  intro i
  cases i with
  | addReg dr sr1 u sr2 => exact decode_encode_addReg dr sr1 u sr2
  | addImm dr sr1 imm5 => exact decode_encode_addImm dr sr1 imm5
  | andReg dr sr1 u sr2 => exact decode_encode_andReg dr sr1 u sr2
  | andImm dr sr1 imm5 => exact decode_encode_andImm dr sr1 imm5
  | not dr sr u => exact decode_encode_not dr sr u
  | br nzp off9 => exact decode_encode_br nzp off9
  | jmp h base l => exact decode_encode_jmp h base l
  | jsr off11 => exact decode_encode_jsr off11
  | jsrr h base l => exact decode_encode_jsrr h base l
  | ld dr off9 => exact decode_encode_ld dr off9
  | ldr dr base off6 => exact decode_encode_ldr dr base off6
  | ldi dr off9 => exact decode_encode_ldi dr off9
  | lea dr off9 => exact decode_encode_lea dr off9
  | st sr off9 => exact decode_encode_st sr off9
  | str sr base off6 => exact decode_encode_str sr base off6
  | sti sr off9 => exact decode_encode_sti sr off9
  | trap u vect => exact decode_encode_trap u vect
  | rti x => exact decode_encode_rti x
  | reserved13 x => exact decode_encode_reserved13 x

/-! ## Encoding what a word decodes to -/

/-- The bits of the opcode field that name the opcode (R65). -/
def Opcode.bits : Opcode → BitVec 4
  | .br => 0b0000#4 | .add => 0b0001#4 | .ld => 0b0010#4 | .st => 0b0011#4
  | .jsr => 0b0100#4 | .and => 0b0101#4 | .ldr => 0b0110#4 | .str => 0b0111#4
  | .rti => 0b1000#4 | .not => 0b1001#4 | .ldi => 0b1010#4 | .sti => 0b1011#4
  | .jmp => 0b1100#4 | .reserved => 0b1101#4 | .lea => 0b1110#4 | .trap => 0b1111#4

/-- The opcode field holds the bits of the opcode. -/
theorem extractLsb'_opcodeOf (w : Word) : w.extractLsb' 12 4 = (opcodeOf w).bits := by
  apply BitVec.eq_of_getLsbD_eq
  intro k hk
  have h := getLsbD_opcodeOf w (12 + k) (by omega) (by omega)
  rw [Nat.add_sub_cancel_left] at h
  simp only [BitVec.getLsbD_extractLsb', hk, decide_true, Bool.true_and, h]
  rfl

/-- A field of one bit is that bit. -/
theorem extractLsb'_one (w : Word) (k : Nat) : w.extractLsb' k 1 = BitVec.ofBool (w.getLsbD k) := by
  apply BitVec.eq_of_getLsbD_eq
  intro j hj
  obtain rfl : j = 0 := by omega
  simp

section
variable {w : Word} {o : Opcode} (h : opcodeOf w = o)
include h

/-- A word is its opcode field and the twelve bits below it. -/
theorem opcode_append_low12 : o.bits ++ w.extractLsb' 0 12 = w := by
  rw [← h, ← extractLsb'_opcodeOf, BitVec.extractLsb'_append_extractLsb'_eq_extractLsb' (by rfl),
    BitVec.extractLsb'_eq_self]

/-- A word is its opcode, the field at 11:9 and the offset below it. -/
theorem opcode_append_off9 : o.bits ++ w.extractLsb' 9 3 ++ fieldOff9 w = w := by
  have hlow : (w.extractLsb' 9 3 ++ fieldOff9 w : BitVec 12) = w.extractLsb' 0 12 :=
    BitVec.extractLsb'_append_extractLsb'_eq_extractLsb' rfl
  rw [BitVec.append_assoc, hlow]
  exact opcode_append_low12 h

/-- A word is its opcode, its two register fields and the six bits below them. -/
theorem opcode_append_low6 : o.bits ++ w.extractLsb' 9 3 ++ fieldSR1 w ++ fieldLow6 w = w := by
  have hlow : (fieldSR1 w ++ fieldLow6 w : BitVec 9) = fieldOff9 w :=
    BitVec.extractLsb'_append_extractLsb'_eq_extractLsb' rfl
  rw [BitVec.append_assoc, hlow]
  exact opcode_append_off9 h

/-- The low six bits of the register form are bit 5, the unused bits and SR2 (R90, R92). -/
theorem opcode_append_registerOperand (hbit : w.getLsbD 5 = false) :
    o.bits ++ fieldDR w ++ fieldSR1 w ++ 0b0#1 ++ w.extractLsb' 3 2 ++ w.extractLsb' 0 3 = w := by
  have hlow : (0b0#1 ++ w.extractLsb' 3 2 ++ w.extractLsb' 0 3 : BitVec 6) = fieldLow6 w := by
    have hone : 0b0#1 = w.extractLsb' 5 1 := by rw [extractLsb'_one, hbit]; rfl
    rw [hone, BitVec.extractLsb'_append_extractLsb'_eq_extractLsb' (by rfl),
      BitVec.extractLsb'_append_extractLsb'_eq_extractLsb' (by rfl)]
    rfl
  rw [append_registerOperand, hlow]
  exact opcode_append_low6 h

/-- The low six bits of the immediate form are bit 5 and imm5 (R91, R93). -/
theorem opcode_append_immediateOperand (hbit : w.getLsbD 5 = true) :
    o.bits ++ fieldDR w ++ fieldSR1 w ++ 0b1#1 ++ w.extractLsb' 0 5 = w := by
  have hlow : (0b1#1 ++ w.extractLsb' 0 5 : BitVec 6) = fieldLow6 w := by
    have hone : 0b1#1 = w.extractLsb' 5 1 := by rw [extractLsb'_one, hbit]; rfl
    rw [hone, BitVec.extractLsb'_append_extractLsb'_eq_extractLsb' (by rfl)]
    rfl
  rw [append_immediateOperand, hlow]
  exact opcode_append_low6 h

/-- A word of opcode 4 is bit 11 and the offset of JSR (R102). -/
theorem opcode_append_off11 (hbit : w.getLsbD 11 = true) : o.bits ++ 0b1#1 ++ w.extractLsb' 0 11 = w := by
  have hlow : (0b1#1 ++ w.extractLsb' 0 11 : BitVec 12) = w.extractLsb' 0 12 := by
    have hone : 0b1#1 = w.extractLsb' 11 1 := by rw [extractLsb'_one, hbit]; rfl
    rw [hone, BitVec.extractLsb'_append_extractLsb'_eq_extractLsb' (by rfl)]
  rw [BitVec.append_assoc, hlow]
  exact opcode_append_low12 h

/-- A word of opcode 4 is bit 11, the unused bits, BaseR and the unused bits of JSRR (R103). -/
theorem opcode_append_base (hbit : w.getLsbD 11 = false) :
    o.bits ++ 0b0#1 ++ w.extractLsb' 9 2 ++ fieldSR1 w ++ fieldLow6 w = w := by
  have hhigh : (0b0#1 ++ w.extractLsb' 9 2 : BitVec 3) = w.extractLsb' 9 3 := by
    have hone : 0b0#1 = w.extractLsb' 11 1 := by rw [extractLsb'_one, hbit]; rfl
    rw [hone, BitVec.extractLsb'_append_extractLsb'_eq_extractLsb' (by rfl)]
  rw [BitVec.append_assoc (x₁ := o.bits), hhigh]
  exact opcode_append_low6 h

/-- A word is its opcode, the unused bits and the vector of TRAP (R120). -/
theorem opcode_append_vect : o.bits ++ w.extractLsb' 8 4 ++ w.extractLsb' 0 8 = w := by
  have hlow : (w.extractLsb' 8 4 ++ w.extractLsb' 0 8 : BitVec 12) = w.extractLsb' 0 12 :=
    BitVec.extractLsb'_append_extractLsb'_eq_extractLsb' rfl
  rw [BitVec.append_assoc, hlow]
  exact opcode_append_low12 h

end

/-- Settles O39, opcode by opcode: the fields the decoder reads cover the word. -/
theorem encodeUndoesDecode : Obligations.EncodeUndoesDecode := by
  unfold Obligations.EncodeUndoesDecode
  intro w
  cases hop : opcodeOf w with
  | br | ld | st | ldi | sti | lea => simp only [decode, hop, encode]; exact (opcode_append_off9 hop :)
  | ldr | str | not | jmp => simp only [decode, hop, encode]; exact (opcode_append_low6 hop :)
  | rti | reserved => simp only [decode, hop, encode]; exact (opcode_append_low12 hop :)
  | trap => simp only [decode, hop, encode]; exact (opcode_append_vect hop :)
  | add | and =>
    simp only [decode, hop]
    split
    · exact (opcode_append_immediateOperand hop ‹_› :)
    · exact (opcode_append_registerOperand hop (Bool.eq_false_iff.mpr ‹_›) :)
  | jsr =>
    simp only [decode, hop]
    split
    · exact (opcode_append_off11 hop ‹_› :)
    · exact (opcode_append_base hop (Bool.eq_false_iff.mpr ‹_›) :)

/-! ## The table's rows -/

/-- Each instruction's word fits its own row (R62, R68). -/
theorem encode_fits_tableRow (i : Instr) : encode i &&& i.tableRow.1 = i.tableRow.2 := by
  cases i with
  | addReg dr sr1 u sr2 => exact Laws.TableRow.addReg dr sr1 u sr2
  | addImm dr sr1 imm5 => exact Laws.TableRow.addImm dr sr1 imm5
  | andReg dr sr1 u sr2 => exact Laws.TableRow.andReg dr sr1 u sr2
  | andImm dr sr1 imm5 => exact Laws.TableRow.andImm dr sr1 imm5
  | not dr sr u => exact Laws.TableRow.not dr sr u
  | br nzp off9 => exact Laws.TableRow.br nzp off9
  | jmp h base l => exact Laws.TableRow.jmp h base l
  | jsr off11 => exact Laws.TableRow.jsr off11
  | jsrr h base l => exact Laws.TableRow.jsrr h base l
  | ld dr off9 => exact Laws.TableRow.ld dr off9
  | ldr dr base off6 => exact Laws.TableRow.ldr dr base off6
  | ldi dr off9 => exact Laws.TableRow.ldi dr off9
  | lea dr off9 => exact Laws.TableRow.lea dr off9
  | st sr off9 => exact Laws.TableRow.st sr off9
  | str sr base off6 => exact Laws.TableRow.str sr base off6
  | sti sr off9 => exact Laws.TableRow.sti sr off9
  | trap u vect => exact Laws.TableRow.trap u vect
  | rti x => exact Laws.TableRow.rti x
  | reserved13 x => exact Laws.TableRow.reserved13 x

/-- The rows of opcode_table.json, mask and match. -/
def tableRows : List (Word × Word) :=
  [(0xF020, 0x1000), (0xF020, 0x1020), (0xF020, 0x5000), (0xF020, 0x5020), (0xF000, 0x9000), (0xF000, 0x0000),
    (0xF000, 0xC000), (0xF800, 0x4800), (0xF800, 0x4000), (0xF000, 0x2000), (0xF000, 0x6000), (0xF000, 0xA000),
    (0xF000, 0xE000), (0xF000, 0x3000), (0xF000, 0x7000), (0xF000, 0xB000), (0xF000, 0xF000), (0xF000, 0x8000),
    (0xF000, 0xD000)]

theorem tableRow_mem (i : Instr) : i.tableRow ∈ tableRows := by
  cases i <;> simp [Instr.tableRow, tableRows]

/-- Two rows that differ disagree on a bit that both fix. -/
theorem tableRows_pairwise_disagree : tableRows.Pairwise fun p q => p.2 &&& q.1 ≠ q.2 &&& p.1 := by
  decide

/-- A word fits one row at most. -/
theorem tableRow_unique {w : Word} {p q : Word × Word} (hp : p ∈ tableRows) (hq : q ∈ tableRows)
    (h : w &&& p.1 = p.2) (h' : w &&& q.1 = q.2) : p = q := by
  have hsymm : Std.Symm fun p q : Word × Word => p.2 &&& q.1 ≠ q.2 &&& p.1 := ⟨fun _ _ => Ne.symm⟩
  by_contra hne
  refine tableRows_pairwise_disagree.forall hp hq hne ?_
  rw [← h, ← h', BitVec.and_assoc, BitVec.and_assoc, BitVec.and_comm p.1]

/-- Settles O40. The word fits the row it decodes to, because it is that instruction's encoding, and no other row. -/
theorem everyWordMatchesExactlyItsRow : Obligations.EveryWordMatchesExactlyItsRow := by
  unfold Obligations.EveryWordMatchesExactlyItsRow
  intro w i
  have hown : w &&& (decode w).tableRow.1 = (decode w).tableRow.2 := by
    have h := encode_fits_tableRow (decode w)
    rwa [encodeUndoesDecode w] at h
  constructor
  · exact tableRow_unique (tableRow_mem _) (tableRow_mem i) hown
  · intro h
    rwa [h] at hown

/-- Settles O37. The decoder is run on each word. -/
theorem workedWordsDecode : Obligations.WorkedWordsDecode := by
  unfold Obligations.WorkedWordsDecode
  decide

end Sys2Proof
end

section
/-! The check of the unused bits under STRICT_UNUSED_BITS (spec/30_encoding.md R67, spec/40_dispatch.md R83). -/

namespace Sys2Proof

open Sys2Proof.Claims

/-! ## The unused fields of an encoded instruction -/

theorem unused_encode_addReg (dr sr1 : Reg) (u : BitVec 2) (sr2 : Reg) :
    (encode (.addReg dr sr1 u sr2)).extractLsb' 3 2 = u := by
  rw [encode, append_registerOperand, extractLsb'_twoRegisters _ _ _ _ (by decide), unused_registerOperand]

theorem unused_encode_andReg (dr sr1 : Reg) (u : BitVec 2) (sr2 : Reg) :
    (encode (.andReg dr sr1 u sr2)).extractLsb' 3 2 = u := by
  rw [encode, append_registerOperand, extractLsb'_twoRegisters _ _ _ _ (by decide), unused_registerOperand]

theorem unused_encode_not (dr sr : Reg) (u : BitVec 6) : (encode (.not dr sr u)).extractLsb' 0 6 = u :=
  fieldLow6_twoRegisters ..

theorem unusedHi_encode_jmp (h : BitVec 3) (base : Reg) (l : BitVec 6) :
    (encode (.jmp h base l)).extractLsb' 9 3 = h := fieldDR_twoRegisters ..

theorem unusedLo_encode_jmp (h : BitVec 3) (base : Reg) (l : BitVec 6) :
    (encode (.jmp h base l)).extractLsb' 0 6 = l := fieldLow6_twoRegisters ..

/-! ## Masks of fields -/

/-- The word whose bits from `a` on, `n` of them, are set. -/
def fieldMask (a n : Nat) : Word := (BitVec.allOnes n).setWidth 16 <<< a

/-- A word under the mask of a field is the field's value at its place. -/
theorem and_fieldMask_eq_iff (w : Word) {a n : Nat} (h : a + n ≤ 16) (x : BitVec n) :
    w &&& fieldMask a n = x.setWidth 16 <<< a ↔ w.extractLsb' a n = x := by
  constructor
  · intro hw
    apply BitVec.eq_of_getLsbD_eq
    intro k hk
    have hbit := congrArg (BitVec.getLsbD · (a + k)) hw
    have h16 : a + k < 16 := by omega
    have h16' : k < 16 := by omega
    simpa [fieldMask, hk, h16, h16'] using hbit
  · rintro rfl
    apply BitVec.eq_of_getLsbD_eq
    intro k hk
    by_cases ha : k < a
    · simp [fieldMask, ha]
    · have hback : a + (k - a) = k := by omega
      simp [fieldMask, ha, hk, hback, Bool.and_comm]

/-- No bit of a word stands under the mask of a field exactly when the field holds 0. -/
theorem and_fieldMask_eq_zero_iff (w : Word) {a n : Nat} (h : a + n ≤ 16) :
    w &&& fieldMask a n = 0 ↔ w.extractLsb' a n = 0 := by
  have hzero : (0 : BitVec n).setWidth 16 <<< a = 0 := by simp
  rw [← and_fieldMask_eq_iff w h, hzero]

/-- The same of the two fields that stand under one mask. -/
theorem and_fieldMask_or_eq_zero_iff (w : Word) {a n b m : Nat} (h : a + n ≤ 16) (h' : b + m ≤ 16) :
    w &&& (fieldMask a n ||| fieldMask b m) = 0 ↔ w.extractLsb' a n = 0 ∧ w.extractLsb' b m = 0 := by
  rw [BitVec.and_or_distrib_left, ← and_fieldMask_eq_zero_iff w h, ← and_fieldMask_eq_zero_iff w h']
  exact BitVec.or_eq_zero_iff

/-! ## The canonical words -/

/-- An encoded instruction fits the rows that are its own. -/
theorem encode_and_tableRow_iff (i j : Instr) :
    encode i &&& j.tableRow.1 = j.tableRow.2 ↔ i.tableRow = j.tableRow := by
  rw [everyWordMatchesExactlyItsRow (encode i) j, decodeUndoesEncode i]

/-- The rows of R67's list by name, and its masks by the fields they cover. -/
theorem nonCanonicalWord_encode_iff (i : Instr) :
    nonCanonicalWord (encode i) ↔
      ((i.tableRow = (0xF020, 0x1000) ∨ i.tableRow = (0xF020, 0x5000)) ∧ (encode i).extractLsb' 3 2 ≠ 0) ∨
      (i.tableRow = (0xF000, 0x9000) ∧ (encode i).extractLsb' 0 6 ≠ 0b111111) ∨
      (i.tableRow = (0xF000, 0xC000) ∧ ¬ ((encode i).extractLsb' 9 3 = 0 ∧ (encode i).extractLsb' 0 6 = 0)) ∨
      (i.tableRow = (0xF800, 0x4000) ∧ ¬ ((encode i).extractLsb' 9 2 = 0 ∧ (encode i).extractLsb' 0 6 = 0)) ∨
      (i.tableRow = (0xF000, 0xF000) ∧ (encode i).extractLsb' 8 4 ≠ 0) := by
  have hadd := encode_and_tableRow_iff i (.addReg 0 0 0 0)
  have hand := encode_and_tableRow_iff i (.andReg 0 0 0 0)
  have hnot := encode_and_tableRow_iff i (.not 0 0 0)
  have hjmp := encode_and_tableRow_iff i (.jmp 0 0 0)
  have hjsrr := encode_and_tableRow_iff i (.jsrr 0 0 0)
  have htrap := encode_and_tableRow_iff i (.trap 0 0)
  have h2 := and_fieldMask_eq_zero_iff (encode i) (a := 3) (n := 2) (by decide)
  have h6 := and_fieldMask_eq_iff (encode i) (a := 0) (n := 6) (by decide) 0b111111
  have h36 := and_fieldMask_or_eq_zero_iff (encode i) (a := 9) (n := 3) (b := 0) (m := 6) (by decide) (by decide)
  have h26 := and_fieldMask_or_eq_zero_iff (encode i) (a := 9) (n := 2) (b := 0) (m := 6) (by decide) (by decide)
  have h4 := and_fieldMask_eq_zero_iff (encode i) (a := 8) (n := 4) (by decide)
  exact or_congr (and_congr (or_congr hadd hand) (not_congr h2)) (or_congr (and_congr hnot (not_congr h6))
    (or_congr (and_congr hjmp (not_congr h36)) (or_congr (and_congr hjsrr (not_congr h26))
      (and_congr htrap (not_congr h4)))))

/-- A word is off its canonical form exactly when the instruction it decodes to is. -/
theorem nonCanonicalWord_iff (w : Word) : nonCanonicalWord w ↔ (decode w).canonical = false := by
  obtain ⟨i, rfl⟩ : ∃ i, w = encode i := ⟨decode w, (encodeUndoesDecode w).symm⟩
  rw [nonCanonicalWord_encode_iff, decodeUndoesEncode i]
  cases i with
  | addReg dr sr1 u sr2 => simp [Instr.tableRow, Instr.canonical, unused_encode_addReg]
  | andReg dr sr1 u sr2 => simp [Instr.tableRow, Instr.canonical, unused_encode_andReg]
  | not dr sr u => simp [Instr.tableRow, Instr.canonical, unused_encode_not]
  | jmp h base l => simp [Instr.tableRow, Instr.canonical, unusedHi_encode_jmp, unusedLo_encode_jmp]
  | jsrr h base l => simp [Instr.tableRow, Instr.canonical, unusedHi_encode_jsrr, unusedLo_encode_jsrr]
  | trap u vect => simp [Instr.tableRow, Instr.canonical, unused_encode_trap]
  | _ => simp [Instr.tableRow, Instr.canonical]

end Sys2Proof
end

section
/-! What a step does before it runs an instruction: the control samples, the fetch and the check of the unused bits
(spec/40_dispatch.md R80 to R83, spec/60_exceptions.md R138 to R140). -/

namespace Sys2Proof.Machine

open Sys2Proof.Claims

/-! ## The control samples -/

theorem step_stop {s : State} (hc : s.control = .stop) : step s = .next s.popControl.takeStop := by
  simp only [step, cycle, hc]

theorem step_reset {s : State} {image : List (Word × Word)} (hc : s.control = .reset image) :
    step s = .next (s.popControl.takeReset image) := by
  simp only [step, cycle, hc]

/-- A terminal state takes no step on an idle sample (R140). -/
theorem step_idle_terminal {s : State} (hc : s.control = .idle) (hr : s.run ≠ .running) :
    step s = .next s.popControl := by
  simp only [step, cycle, hc, idleCycle, State.run_popControl]
  split
  · exact absurd ‹_› hr
  all_goals rfl

/-- A stop leaves a terminal state as it is (R140). -/
theorem takeStop_terminal {s : State} (hr : s.run ≠ .running) : s.takeStop = s := by
  rw [State.takeStop_eq, if_neg hr]

/-- Settles O33. The sample is looked at before anything is fetched. -/
theorem stopIsTakenBeforeTheFetch : Obligations.StopIsTakenBeforeTheFetch := by
  unfold Obligations.StopIsTakenBeforeTheFetch
  intro s hr hc
  rw [step_stop hc, State.takeStop_eq, State.run_popControl, if_pos hr]
  rfl

/-- Settles O34, sample by sample. -/
theorem terminalStatesTakeNoStep : Obligations.TerminalStatesTakeNoStep := by
  unfold Obligations.TerminalStatesTakeNoStep
  intro s hr
  constructor
  · intro hnoReset
    cases hc : s.control with
    | idle => exact step_idle_terminal hc hr
    | stop =>
      rw [step_stop hc, takeStop_terminal (s := s.popControl) hr]
      rfl
    | reset image => exact absurd hc (hnoReset image)
  · intro image hc
    exact ⟨_, step_reset hc, rfl⟩

/-! ## The fetch -/

theorem params_memRead {a v : Word} {s t : State} (h : memRead a s = .value v t) : t.params = s.params := by
  obtain ⟨m, d, q, rfl⟩ := memRead_value_eq h
  rfl

theorem params_fetch {s s1 : State} {w : Word} (h : memRead s.pc s.popControl = .value w s1) :
    s1.params = s.params := params_memRead (s := s.popControl) h

/-- The dispatcher runs an instruction it accepts (R83). -/
theorem dispatch_of_wf {i : Instr} {s : State} (h : i.wf s.params.strictUnusedBits = true) :
    dispatch i s = exec i s := if_pos h

/-- The dispatcher raises BAD_OPCODE for an instruction it does not accept (R67, R83). -/
theorem dispatch_of_not_wf {i : Instr} {s : State} (h : i.wf s.params.strictUnusedBits = false) :
    dispatch i s = .next (s.raise .badOpcode) := if_neg (Bool.eq_false_iff.mp h)

/-- Settles O28. The fetch keeps the parameters, so the dispatcher accepts the instruction. -/
theorem stepRunsDecodedInstruction : Obligations.StepRunsDecodedInstruction := by
  unfold Obligations.StepRunsDecodedInstruction
  rintro s s1 w i hc hr hfetch rfl hwf
  rw [← params_fetch hfetch] at hwf
  rw [step_fetched hc hr hfetch, dispatch_of_wf (s := s1.fetched w) hwf, fetched_eq hfetch]

/-- Settles O29. The read's frame and the fault's frame compose. -/
theorem fetchErrorKeepsProgramCounter : Obligations.FetchErrorKeepsProgramCounter := by
  unfold Obligations.FetchErrorKeepsProgramCounter
  intro s s1 hc hr hfetch
  obtain ⟨hmem, ⟨hregs, hpc, hcond, ⟨-, hir, -, -⟩, htrapIn, -⟩, -⟩ := memRead_error hfetch
  have hrun : s1.raiseOnFetch.run = .faulted ⟨.deviceError, 0x0000, s.pc⟩ := by
    simp [hpc]
  have hsame : SameMemory s s1.raiseOnFetch := fun a => congrArg (Memory.read · a) hmem
  exact ⟨_, step_fetch_error hc hr hfetch, hrun, hpc, hir, hregs, hcond, hsame, htrapIn⟩

/-- The empty mask meets no flags, so the branch is not taken (R100). -/
theorem exec_br_emptyMask (off9 : BitVec 9) (s : State) : exec (.br 0 off9) s = .next s := by
  have hempty : ¬ (0 : BitVec 3) &&& s.cond ≠ 0 := not_not.2 BitVec.zero_and
  rw [exec_br, if_neg hempty]
  rfl

/-- Settles O32. The zero word is BR with the empty mask. -/
theorem zeroWordIsNoOperation : Obligations.ZeroWordIsNoOperation := by
  unfold Obligations.ZeroWordIsNoOperation
  intro s hc hr hord hzero
  have hfetch : memRead s.pc s.popControl = .value 0x0000 s.popControl := by
    rw [memRead_ordinary (s := s.popControl) hord, State.mem_popControl, hzero]
  have hstep := stepRunsDecodedInstruction s s.popControl 0x0000 (.br 0 0) hc hr hfetch (by decide)
    (by simp [Instr.wf, Instr.canonical])
  rw [hstep, exec_br_emptyMask]
  rfl

/-! ## The check of the unused bits -/

/-- Settles O30. The dispatcher's check is the one of R67's list, and it looks at the parameter as it was before the
fetch. -/
theorem strictUnusedBitsFault : Obligations.StrictUnusedBitsFault := by
  unfold Obligations.StrictUnusedBitsFault
  intro s s1 w hc hr hfetch
  have hparams := params_fetch hfetch
  have hstep := step_fetched hc hr hfetch
  rw [← fetched_eq hfetch, ← hparams, hstep, nonCanonicalWord_iff]
  refine ⟨fun hstrict hoff => ?_, fun hstrict hon => ?_, fun hlax => ?_⟩
  · have hwf : (decode w).wf s1.params.strictUnusedBits = false := by simp [Instr.wf, hstrict, hoff]
    exact ⟨_, dispatch_of_not_wf hwf, faultResult_raise .badOpcode _⟩
  · exact dispatch_of_wf (by simpa [Instr.wf, hstrict] using hon)
  · exact dispatch_of_wf (by simp [Instr.wf, hlax])

/-- Settles O31. No handler takes the unused bits. -/
theorem unusedBitsDoNotReachHandlers : Obligations.UnusedBitsDoNotReachHandlers := by
  unfold Obligations.UnusedBitsDoNotReachHandlers
  intros
  exact ⟨rfl, rfl, rfl, rfl, rfl, rfl⟩

end Sys2Proof.Machine
end

section
/-! What a list of writes leaves in the memory, and the start values of a reset (spec/70_reset_and_hazards.md R150 to
R152). -/

namespace Sys2Proof.Machine

open Sys2Proof.Claims

/-! ## The last write to a cell -/

theorem lastWord_nil (a old : Word) : lastWord [] a old = old := rfl

/-- The writes after the first one are made over its word. -/
theorem lastWord_cons (p : Word × Word) (ws : List (Word × Word)) (a old : Word) :
    lastWord (p :: ws) a old = lastWord ws a (if a = p.1 then p.2 else old) := by
  simp only [lastWord, List.reverse_cons, List.lookup_append]
  cases ws.reverse.lookup a with
  | some v => rfl
  | none =>
    by_cases h : a = p.1
    · simp [List.lookup, h]
    · simp [List.lookup, h, beq_eq_false_iff_ne.mpr h]

/-- A cell holds the last word that a list of writes places there (R47, R50). -/
theorem read_writeAll {m : Memory} (h : Memory.wf m = true) (ws : List (Word × Word)) (a : Word) :
    Memory.read (Memory.writeAll m ws) a = lastWord ws a (Memory.read m a) := by
  induction ws generalizing m with
  | nil => rfl
  | cons p ws ih =>
    rw [lastWord_cons, ← Memory.read_write h]
    exact ih (Memory.wf_write h p.1 p.2)

/-- Dropping the writes outside `DEVICE_ADDRS` makes no difference to a device cell (R46). -/
theorem lastWord_deviceWrites {addrs : List Word} {a : Word} (ha : addrs.contains a = true)
    (ws : List (Word × Word)) (old : Word) : lastWord (deviceWrites addrs ws) a old = lastWord ws a old := by
  induction ws generalizing old with
  | nil => rfl
  | cons p ws ih =>
    cases hp : addrs.contains p.1 with
    | true =>
      have hkeep : deviceWrites addrs (p :: ws) = p :: deviceWrites addrs ws := List.filter_cons_of_pos hp
      rw [hkeep, lastWord_cons, lastWord_cons, ih]
    | false =>
      have hdrop : deviceWrites addrs (p :: ws) = deviceWrites addrs ws :=
        List.filter_cons_of_neg (Bool.eq_false_iff.mp hp)
      have hne : a ≠ p.1 := by
        rintro rfl
        exact Bool.false_ne_true (hp.symm.trans ha)
      rw [hdrop, lastWord_cons, if_neg hne, ih]

/-! ## Reset -/

/-- Every register starts at 0 (R33). -/
@[simp] theorem reg_boot (p : Params) (m0 : Memory) (r : Reg) : (State.boot p m0).reg r = 0x0000 := by
  simp [State.reg, State.boot]

/-- Settles O35. The launch memory is the image's words written over an empty memory. -/
theorem resetInputRestoresStartState : Obligations.ResetInputRestoresStartState := by
  unfold Obligations.ResetInputRestoresStartState
  intro s image hc
  have hregs (r : Reg) : (s.popControl.takeReset image).reg r = 0x0000 := reg_boot s.params (Memory.ofImage image) r
  have hmem (a : Word) : Memory.read (s.popControl.takeReset image).mem a = lastWord image a 0x0000 := by
    rw [State.mem_takeReset, Memory.ofImage, read_writeAll rfl, Memory.read_nil]
  exact ⟨_, step_reset hc, hregs, rfl, rfl, rfl, hmem, rfl, rfl, rfl, rfl, rfl⟩

/-- Settles O36. With no image loaded, every cell of the empty list reads as 0. -/
theorem resetStateValues : Obligations.ResetStateValues := by
  unfold Obligations.ResetStateValues
  have hdevices (a : Word) : State.reset.params.deviceAddrs.contains a = true ↔ a = 0xFE00 ∨ a = 0xFE02 := by
    simp [State.reset, State.boot, Params.default]
  exact ⟨reg_boot _ _, rfl, rfl, rfl, Memory.read_nil, rfl, rfl, hdevices⟩

/-- Settles O44. A reset raises Z alone and starts the run, with no fault to explain. -/
theorem resetMeetsTheInvariants : Obligations.ResetMeetsTheInvariants := by
  unfold Obligations.ResetMeetsTheInvariants
  have hz : OneHot (flagBits .z) := oneHot_flagBits .z
  exact ⟨⟨rfl, hz, trivial⟩, fun s image => ⟨Memory.wf_ofImage image, hz, trivial⟩⟩

end Sys2Proof.Machine
end

section
/-! What a read outside and a read inside DEVICE_ADDRS gives, and the loads and stores over each
(spec/20_memory.md R41 to R51, spec/43_load_store.md). -/

namespace Sys2Proof.Machine

open Sys2Proof.Claims

/-! ## Addresses (R41) -/

/-- A word plus a sign-extended offset is the integer sum modulo 65536. -/
theorem toNat_add_sext {n : Nat} (x : Word) (off : BitVec n) :
    ((x + sext off).toNat : Int) = ((x.toNat : Int) + off.toInt) % 65536 := by
  rw [add_sext, BitVec.toNat_ofInt]
  omega

/-- Settles O22. All three addressing modes add a sign-extended offset to a word. -/
theorem effectiveAddressesWrap : Obligations.EffectiveAddressesWrap := by
  unfold Obligations.EffectiveAddressesWrap
  intro s off9 off11 base off6
  exact ⟨toNat_add_sext s.pc off9, toNat_add_sext s.pc off11, toNat_add_sext (s.reg base) off6⟩

/-! ## Ordinary memory -/

/-- Settles O23. A read outside `DEVICE_ADDRS` is the stored word, whatever was written before it. -/
theorem ordinaryReadGivesStoredWord : Obligations.OrdinaryReadGivesStoredWord := by
  unfold Obligations.OrdinaryReadGivesStoredWord
  intro s a b v hm ha
  have hread (c : Word) :
      memRead a (s.memWrite c v) = .value (if a = c then v else Memory.read s.mem a) (s.memWrite c v) := by
    rw [memRead_ordinary (s := s.memWrite c v) ha, State.mem_memWrite, Memory.read_write hm]
  refine ⟨memRead_ordinary ha, ?_, fun hne => ?_⟩
  · rw [hread, if_pos rfl]
  · rw [hread, if_neg hne]

/-- A load from an ordinary cell gives `dr` the stored word and changes nothing else (R110 to R112). -/
theorem loadFrom_ordinary (dr : Reg) {ea : Word} {s : State} (h : s.params.deviceAddrs.contains ea = false) :
    ∃ t, loadFrom dr ea s = .next t ∧ RegisterResult dr (Memory.read s.mem ea) s t :=
  ⟨_, withRead_of_value _ (memRead_ordinary h), registerResult_writeResult s dr _⟩

/-- Settles O24. Each read outside `DEVICE_ADDRS` is answered at once and leaves the state. -/
theorem loadsAndIndirectStoresCompleteOnOrdinaryMemory :
    Obligations.LoadsAndIndirectStoresCompleteOnOrdinaryMemory := by
  unfold Obligations.LoadsAndIndirectStoresCompleteOnOrdinaryMemory
  intro s r base off9 off6 hm
  refine ⟨loadFrom_ordinary r, loadFrom_ordinary r, fun hpointer hvalue => ?_, fun hpointer => ?_⟩
  · obtain ⟨t, hload, hresult⟩ := loadFrom_ordinary r hvalue
    exact ⟨t, (withRead_of_value _ (memRead_ordinary hpointer)).trans hload, hresult⟩
  · exact ⟨_, withRead_of_value _ (memRead_ordinary hpointer), storeResult_memWrite hm _ _⟩

/-! ## Device cells -/

section
variable {s : State} {a : Word} {n : Nat} {rest : List (PortResponse DeviceAnswer)}
  (ha : s.params.deviceAddrs.contains a = true)
include ha

/-- A device read that `Value` answers after `n` times `Retry` (R45, R46). -/
theorem memRead_of_deviceValue {v : Word} {w : List (Word × Word)}
    (hd : s.devIn = List.replicate n .retry ++ .answer (.value v w) :: rest) :
    memRead a s = .value v { s with
      mem := Memory.writeAll s.mem (deviceWrites s.params.deviceAddrs w), devIn := rest
      sent := List.replicate (n + 1) (.devread a) ++ s.sent } := by
  simp only [memRead, devRead, ha, if_true, hd, portLoop_retries]

/-- A device read that `Error` answers after `n` times `Retry` (R45, R46). -/
theorem memRead_of_deviceError (hd : s.devIn = List.replicate n .retry ++ .answer .error :: rest) :
    memRead a s = .error { s with devIn := rest, sent := List.replicate (n + 1) (.devread a) ++ s.sent } := by
  simp only [memRead, devRead, ha, if_true, hd, portLoop_retries]

end

/-- Settles O25. The writes that the model drops are to no device cell. -/
theorem deviceReadFollowsPortAnswers : Obligations.DeviceReadFollowsPortAnswers := by
  unfold Obligations.DeviceReadFollowsPortAnswers
  intro s a n x rest hm ha hd
  cases x with
  | value v w =>
    have hread := memRead_of_deviceValue ha hd
    refine ⟨_, hread, rfl, rfl, (memRead_value hread hm).2, fun b hb => ?_⟩
    rw [read_writeAll hm, lastWord_deviceWrites hb]
  | error =>
    have hread := memRead_of_deviceError ha hd
    obtain ⟨-, hframe, -⟩ := memRead_error hread
    exact ⟨_, hread, rfl, rfl, hframe, fun _ => rfl⟩

/-- Settles O26. The read asks the port, and an answer without writes leaves the stored word in the cell. -/
theorem writeToDeviceCellReachesOnlyTheCell : Obligations.WriteToDeviceCellReachesOnlyTheCell := by
  unfold Obligations.WriteToDeviceCellReachesOnlyTheCell
  intro s a v x rest hm ha hd
  have hstore := storeResult_memWrite hm a v
  obtain ⟨s1, hread, -, -, -, hcells⟩ :=
    deviceReadFollowsPortAnswers (s.memWrite a v) a 0 (.value x []) rest (Memory.wf_write hm a v) ha hd
  refine ⟨hstore, s1, hread, ?_⟩
  rw [hcells a ha, lastWord_nil]
  exact hstore.1

/-- Settles O27. The second request is made in the state the first one left. -/
theorem ldiAsksDeviceForPointerFirst : Obligations.LdiAsksDeviceForPointerFirst := by
  unfold Obligations.LdiAsksDeviceForPointerFirst
  intro s dr off9 ea v w1 w2 rest hpa hea hd
  obtain ⟨s1, hpointer, hparams, hd1, hsent1⟩ : ∃ s1, memRead (s.pc + BitVec.ofInt 16 off9.toInt) s = .value ea s1 ∧
      s1.params = s.params ∧ s1.devIn = .answer (.value v w2) :: rest ∧
      s1.sent = .devread (s.pc + BitVec.ofInt 16 off9.toInt) :: s.sent :=
    ⟨_, memRead_of_deviceValue (n := 0) hpa hd, rfl, rfl, rfl⟩
  rw [← hparams] at hea
  have hvalue := memRead_of_deviceValue (n := 0) hea hd1
  have hload : exec (.ldi dr off9) s = loadFrom dr ea s1 := (exec_ldi dr off9 s).trans (withRead_of_value _ hpointer)
  refine ⟨_, hload.trans (withRead_of_value _ hvalue), by simp, rfl, ?_⟩
  rw [← hsent1]
  rfl

end Sys2Proof.Machine
end

section
/-! What each instruction may write: registers, pc, flags and memory (spec/10_state.md R21 to R27). -/

namespace Sys2Proof.Machine

open Sys2Proof.Claims

/-! ## Fields that data reads and trap requests keep -/

theorem Reads.reg {i : Instr} {s t : State} (h : Reads i s t) (r : Reg) : t.reg r = s.reg r := by
  obtain ⟨m, d, q, rfl⟩ := h.eq
  rfl

theorem Reads.pc {i : Instr} {s t : State} (h : Reads i s t) : t.pc = s.pc := by
  obtain ⟨m, d, q, rfl⟩ := h.eq
  rfl

theorem Reads.cond {i : Instr} {s t : State} (h : Reads i s t) : t.cond = s.cond := by
  obtain ⟨m, d, q, rfl⟩ := h.eq
  rfl

theorem Reads.params {i : Instr} {s t : State} (h : Reads i s t) : t.params = s.params := by
  obtain ⟨m, d, q, rfl⟩ := h.eq
  rfl

/-- What a data read that a device error ended keeps (R45, R88). -/
theorem Reads.error {i : Instr} {s u u' : State} {a : Word} (h : Reads i s u) (he : memRead a u = .error u') :
    SameRegs s u' ∧ u'.pc = s.pc ∧ u'.cond = s.cond ∧ SameControl s u' := by
  obtain ⟨m, d, q, rfl⟩ := h.eq
  obtain ⟨-, ⟨hregs, hpc, hcond, hcontrol, -⟩, -⟩ := memRead_error he
  exact ⟨hregs, hpc, hcond, hcontrol⟩

/-- A trap answer does not write `pc` (R123). -/
@[simp] theorem pc_applyTrapAnswer (x : TrapAnswer) (s : State) : (applyTrapAnswer x s).pc = s.pc := by
  cases x <;> rfl

/-! ## The statements -/

/-- Settles O47. A register result and a call write the register `writtenReg` names, and nothing else but a trap
answer writes one. -/
theorem registersHaveOnlyTheirWriters : Obligations.RegistersHaveOnlyTheirWriters := by
  unfold Obligations.RegistersHaveOnlyTheirWriters
  intro i s t r htrap hother h
  cases exec_effect h with
  | result hw hf hr =>
    have hne : r ≠ _ := fun e => hother (hw.trans (congrArg some e.symm))
    rw [State.reg_writeResult, if_neg hne, hr.reg]
  | stay hp => rfl
  | jump hp => rfl
  | call hp hw =>
    have hne : r ≠ 7 := fun e => hother (hw.trans (congrArg some e.symm))
    rw [State.reg_setPc, State.reg_link, if_neg hne]
  | store ht hr => exact hr.reg r
  | deviceError hi hr he =>
    obtain ⟨hregs, -⟩ := hr.error he
    exact hregs r
  | trap hi hc => cases hi; cases htrap
  | badOpcode hi => rfl

/-- Settles O48. A branch, a jump and a call are by instructions that write `pc`, and nothing else writes it. -/
theorem programCounterHasOnlyItsWriters : Obligations.ProgramCounterHasOnlyItsWriters := by
  unfold Obligations.ProgramCounterHasOnlyItsWriters
  intro i s t hpc h
  cases exec_effect h with
  | result hw hf hr => exact hr.pc
  | stay hp => rfl
  | jump hp => exact absurd (hpc.symm.trans hp) Bool.false_ne_true
  | call hp hw => exact absurd (hpc.symm.trans hp) Bool.false_ne_true
  | store ht hr => exact hr.pc
  | deviceError hi hr he =>
    obtain ⟨-, hpc', -⟩ := hr.error he
    exact hpc'
  | trap hi hc =>
    obtain ⟨d, n, rfl⟩ := trapCall_answer hc
    exact pc_applyTrapAnswer _ _
  | badOpcode hi => rfl

/-- An instruction that updates the flags neither writes `pc`, nor stores, nor traps. -/
theorem updatesFlags_excludes {i : Instr} (h : updatesFlags i = true) :
    writesPc i = false ∧ (∀ s, storeTarget i s = none) ∧ isTrap i = false := by
  cases i with
  | addReg | addImm | andReg | andImm | not | ld | ldr | ldi | lea => exact ⟨rfl, fun _ => rfl, rfl⟩
  | _ => cases h

/-- An instruction that neither updates the flags nor traps keeps them (R27). -/
theorem exec_keeps_cond {i : Instr} {s t : State} (hflags : updatesFlags i = false) (htrap : isTrap i = false)
    (h : exec i s = .next t) : t.cond = s.cond := by
  cases exec_effect h with
  | result hw hf hr => exact absurd (hflags.symm.trans hf) Bool.false_ne_true
  | stay hp => rfl
  | jump hp => rfl
  | call hp hw => rfl
  | store ht hr => exact hr.cond
  | deviceError hi hr he =>
    obtain ⟨-, -, hcond, -⟩ := hr.error he
    exact hcond
  | trap hi hc => cases hi; cases htrap
  | badOpcode hi => rfl

/-- An instruction that updates the flags, and does not fault, leaves those of the register it wrote (R87). -/
theorem exec_sets_flags {i : Instr} {s t : State} (hflags : updatesFlags i = true) (hrun : t.run = .running)
    (h : exec i s = .next t) : ∃ dr, writtenReg i = some dr ∧ t.cond = signedFlags (t.reg dr) := by
  obtain ⟨hpc, hstore, htrap⟩ := updatesFlags_excludes hflags
  cases exec_effect h with
  | result hw hf hr =>
    refine ⟨_, hw, ?_⟩
    rw [State.cond_writeResult, flagBits_flagOf, State.reg_writeResult, if_pos rfl]
  | stay hp => exact absurd (hpc.symm.trans hp) Bool.false_ne_true
  | jump hp => exact absurd (hpc.symm.trans hp) Bool.false_ne_true
  | call hp hw => exact absurd (hpc.symm.trans hp) Bool.false_ne_true
  | store ht hr => cases (hstore s).symm.trans ht
  | deviceError hi hr he => cases hrun
  | trap hi hc => cases hi; cases htrap
  | badOpcode hi => cases hrun

/-- Settles O49. Only a register result and a trap answer write the flags. -/
theorem flagsHaveOnlyTheirWriters : Obligations.FlagsHaveOnlyTheirWriters := by
  unfold Obligations.FlagsHaveOnlyTheirWriters
  intro i s t h
  exact ⟨fun hflags htrap => exec_keeps_cond hflags htrap h, fun hflags _ hrun => exec_sets_flags hflags hrun h⟩

/-- Settles O50. The step writes an ordinary cell only if it fetches a store to it. -/
theorem memoryHasOnlyItsWriters : Obligations.MemoryHasOnlyItsWriters := by
  unfold Obligations.MemoryHasOnlyItsWriters
  intro s s1 t w a hm hc hr hfetch hstep hord hother
  refine (step_memoryFrame hstep).read hm a hord ?_
  rintro (⟨image, hreset⟩ | ⟨-, -, w', s1', hfetch', htarget⟩)
  · cases hc.symm.trans hreset
  · cases hfetch.symm.trans hfetch'
    exact hother a htarget rfl

/-- Settles O41. Every write to the memory, a reset's too, keeps the canonical form. -/
theorem stepKeepsMemoryCanonical : Obligations.StepKeepsMemoryCanonical := by
  unfold Obligations.StepKeepsMemoryCanonical
  exact fun s t hm hstep => (step_memoryFrame hstep).wf hm

/-- Settles O56. No part of a step writes the parameters. -/
theorem parametersNeverChange : Obligations.ParametersNeverChange := by
  unfold Obligations.ParametersNeverChange
  exact fun s t hstep => (step_memoryFrame hstep).params

end Sys2Proof.Machine
end

section
/-! The flags over a step, and how a step can leave RUNNING (spec/10_state.md R26, R28, spec/60_exceptions.md R130 to
R140). -/

namespace Sys2Proof.Machine

open Sys2Proof.Claims

/-- The fields of the core after a fetch (R81, R82). -/
theorem fetched_fields {s s1 : State} {w : Word} (h : memRead s.pc s.popControl = .value w s1) :
    SameRegs s (s1.fetched w) ∧ (s1.fetched w).pc = s.pc + 1 ∧ (s1.fetched w).cond = s.cond ∧
      (s1.fetched w).ir = w ∧ (s1.fetched w).run = s.run := by
  obtain ⟨m, d, q, rfl⟩ := memRead_value_eq h
  exact ⟨fun _ => rfl, rfl, rfl, rfl, rfl⟩

/-! ## The flags stay one-hot (R26) -/

/-- A trap answer's flags are N, Z or P (R123); a trap error leaves those before it. -/
theorem oneHot_applyTrapAnswer {s : State} (h : OneHot s.cond) (x : TrapAnswer) :
    OneHot (applyTrapAnswer x s).cond := by
  cases x with
  | cont r c => exact oneHot_flagBits c
  | halt r c => exact oneHot_flagBits c
  | error => exact h

theorem exec_keeps_oneHot {i : Instr} {s t : State} (hs : OneHot s.cond) (h : exec i s = .next t) :
    OneHot t.cond := by
  cases exec_effect h with
  | result hw hf hr =>
    rw [State.cond_writeResult]
    exact oneHot_flagBits _
  | stay hp => exact hs
  | jump hp => exact hs
  | call hp hw => exact hs
  | store ht hr => rwa [State.cond_memWrite, hr.cond]
  | deviceError hi hr he =>
    obtain ⟨-, -, hcond, -⟩ := hr.error he
    rwa [State.cond_raise, hcond]
  | trap hi hc =>
    obtain ⟨d, n, rfl⟩ := trapCall_answer hc
    exact oneHot_applyTrapAnswer (s := { s with trapIn := d, sent := _ }) hs _
  | badOpcode hi => exact hs

/-- Settles O42. The flags change only to those of a value, to those of a trap answer and, at a reset, to Z. -/
theorem stepKeepsFlagsOneHot : Obligations.StepKeepsFlagsOneHot := by
  unfold Obligations.StepKeepsFlagsOneHot
  intro s t hs hstep
  obtain ⟨image, -, rfl⟩ | ⟨-, rfl⟩ | ⟨-, -, rfl⟩ | ⟨-, -, s1, hfetch, rfl⟩ | ⟨-, -, w, s1, hfetch, hrun⟩ :=
    step_cases hstep
  · exact oneHot_flagBits .z
  · rw [State.takeStop_eq]
    exact hs
  · exact hs
  · obtain ⟨-, ⟨-, -, hcond, -⟩, -⟩ := memRead_error hfetch
    rw [State.cond_raiseOnFetch, hcond]
    exact hs
  · have hfetched : OneHot (s1.fetched w).cond := by
      obtain ⟨-, -, hcond, -⟩ := fetched_fields hfetch
      rwa [hcond]
    obtain ⟨-, hexec⟩ | ⟨-, rfl⟩ := hrun
    · exact exec_keeps_oneHot hfetched hexec
    · exact hfetched

/-! ## How an instruction leaves RUNNING -/

/-- `t` is `s` with the run state FAULTED by the cause, up to the ports' side and the device cells (R88, R132). -/
structure FaultedBy (cause : FaultCause) (s t : State) : Prop where
  run : t.run = .faulted ⟨cause, s.ir, s.pc - 1⟩
  regs : SameRegs s t
  pc : t.pc = s.pc
  cond : t.cond = s.cond
  ir : t.ir = s.ir
  memory : MemoryFrame (fun _ => False) s t

theorem faultedBy_raise (cause : FaultCause) (s : State) : FaultedBy cause s (s.raise cause) :=
  ⟨rfl, fun _ => rfl, rfl, rfl, rfl, .of_eq rfl rfl⟩

/-- A DEVICE_ERROR on a data read (R45, R88). -/
theorem Reads.faultedBy {i : Instr} {s u u' : State} {a : Word} (h : Reads i s u) (he : memRead a u = .error u') :
    FaultedBy .deviceError s (u'.raise .deviceError) := by
  obtain ⟨hregs, hpc, hcond, -, hir, -, -⟩ := h.error he
  refine ⟨?_, hregs, hpc, hcond, hir, ?_⟩
  · rw [State.run_raise, hir, hpc]
  · exact (h.memoryFrame.trans (memRead_error_memoryFrame he)).trans (.of_eq rfl rfl)

/-- After its fetch an instruction keeps the run state; or a TRAP halts, with its request the newest; or the
instruction faults by a cause it may raise (R28, R88, R131, R139). -/
theorem exec_run {i : Instr} {s t : State} (h : exec i s = .next t) :
    t.run = s.run ∨
    (t.run = .halted ∧ isTrap i = true ∧ ∃ r rest, t.sent = .trap r :: rest) ∨
    (∃ cause, (∀ strict, mayRaise cause strict i = true) ∧ FaultedBy cause s t) := by
  cases exec_effect h with
  | result hw hf hr =>
    obtain ⟨m, d, q, rfl⟩ := hr.eq
    exact .inl rfl
  | stay hp => exact .inl rfl
  | jump hp => exact .inl rfl
  | call hp hw => exact .inl rfl
  | store ht hr =>
    obtain ⟨m, d, q, rfl⟩ := hr.eq
    exact .inl rfl
  | deviceError hi hr he => exact .inr (.inr ⟨.deviceError, fun _ => hi, hr.faultedBy he⟩)
  | @trap unused vect x u hi hc =>
    subst hi
    obtain ⟨d, n, rfl⟩ := trapCall_answer hc
    cases x with
    | cont r c => exact .inl rfl
    | halt r c => exact .inr (.inl ⟨rfl, rfl, _, _, rfl⟩)
    | error =>
      exact .inr (.inr ⟨.trapError, fun _ => rfl, rfl, fun _ => rfl, rfl, rfl, rfl, .of_eq rfl rfl⟩)
  | badOpcode hi =>
    have hmay (strict : Bool) : mayRaise .badOpcode strict i = true := by simp [mayRaise, hi]
    exact .inr (.inr ⟨.badOpcode, hmay, faultedBy_raise .badOpcode s⟩)

/-- How a step of a RUNNING core ends FAULTED: the fetch fails, or the instruction fetched faults by a cause it may
raise (R81, R83, R131). -/
theorem step_faulted {s t : State} {rec : FaultRecord} (hr : s.run = .running) (hstep : step s = .next t)
    (hf : t.run = .faulted rec) :
    (∃ s1, memRead s.pc s.popControl = .error s1 ∧ t = s1.raiseOnFetch) ∨
    ∃ w s1 cause, memRead s.pc s.popControl = .value w s1 ∧
      mayRaise cause s.params.strictUnusedBits (decode w) = true ∧ FaultedBy cause (s1.fetched w) t := by
  obtain ⟨image, -, rfl⟩ | ⟨-, rfl⟩ | ⟨-, hn, -⟩ | ⟨-, -, s1, hfetch, rfl⟩ | ⟨-, -, w, s1, hfetch, hrun⟩ :=
    step_cases hstep
  · cases hf
  · rw [State.takeStop_eq, State.run_popControl, if_pos hr] at hf
    cases hf
  · exact absurd hr hn
  · exact .inl ⟨s1, hfetch, rfl⟩
  · refine .inr ⟨w, s1, ?_⟩
    obtain ⟨-, hexec⟩ | ⟨hwf, rfl⟩ := hrun
    · obtain hsame | ⟨hhalt, -⟩ | ⟨cause, hmay, hfault⟩ := exec_run hexec
      · obtain ⟨-, -, -, -, hfetched⟩ := fetched_fields hfetch
        cases hf.symm.trans (hsame.trans (hfetched.trans hr))
      · cases hf.symm.trans hhalt
      · exact ⟨cause, hfetch, hmay _, hfault⟩
    · exact ⟨.badOpcode, hfetch, by simp [mayRaise, hwf], faultedBy_raise .badOpcode _⟩

/-! ## The statements -/

/-- Settles O45. A fetch, failed or not, writes device cells only, and so does the fault after it. -/
theorem faultingStepWritesNothing : Obligations.FaultingStepWritesNothing := by
  unfold Obligations.FaultingStepWritesNothing
  intro s t rec hm hr hstep hf
  obtain ⟨s1, hfetch, rfl⟩ | ⟨w, s1, cause, hfetch, -, hfault⟩ := step_faulted hr hstep hf
  · obtain ⟨hmem, ⟨hregs, hpc, hcond, -⟩, -⟩ := memRead_error hfetch
    obtain rfl : ⟨.deviceError, 0, s1.pc⟩ = rec := RunState.faulted.inj hf
    exact ⟨hregs, hcond, fun a _ => congrArg (Memory.read · a) hmem, hpc, .inr ⟨hpc, rfl, rfl⟩⟩
  · obtain ⟨hregs, hpc, hcond, -⟩ := fetched_fields hfetch
    obtain rfl : ⟨cause, (s1.fetched w).ir, (s1.fetched w).pc - 1⟩ = rec :=
      RunState.faulted.inj (hfault.run.symm.trans hf)
    have hmemory : MemoryFrame (fun _ => False) s t := (fetched_memoryFrame hfetch).trans hfault.memory
    refine ⟨fun r => (hfault.regs r).trans (hregs r), hfault.cond.trans hcond,
      fun a ha => hmemory.read hm a ha id, ?_, .inl ⟨hfault.pc.trans hpc, hfault.ir.symm⟩⟩
    exact (congrArg (· - 1) hpc).trans (BitVec.add_sub_cancel s.pc 1)

/-- An explained state is one whose record, if it has one, is explained. -/
theorem faultExplained_iff (s : State) :
    FaultExplained s ↔ ∀ rec, s.run = .faulted rec →
      (rec.cause = .deviceError ∧ rec.ir = 0 ∧ s.pc = rec.addr ∧ s.params.deviceAddrs.contains rec.addr = true) ∨
      (s.pc = rec.addr + 1 ∧ s.ir = rec.ir ∧
        mayRaise rec.cause s.params.strictUnusedBits (decode rec.ir) = true) := by
  unfold FaultExplained
  cases s.run <;> simp

/-- Only a FAULTED state has anything to explain. -/
theorem FaultExplained.of_faulted {s : State} (h : ∀ rec, s.run = .faulted rec → FaultExplained s) :
    FaultExplained s :=
  (faultExplained_iff s).mpr fun rec hrec => (faultExplained_iff s).mp (h rec hrec) rec hrec

/-- A fetch that fails leaves the record of R81. -/
theorem faultExplained_raiseOnFetch {s s1 : State} (h : memRead s.pc s.popControl = .error s1) :
    FaultExplained s1.raiseOnFetch := by
  obtain ⟨-, ⟨-, hpc, -, ⟨-, -, hparams, -⟩, -⟩, hdevice⟩ := memRead_error h
  rw [faultExplained_iff]
  intro rec hrec
  obtain rfl : ⟨.deviceError, 0, s1.pc⟩ = rec := RunState.faulted.inj hrec
  refine .inl ⟨rfl, rfl, rfl, ?_⟩
  rw [State.params_raiseOnFetch, hparams, hpc]
  exact hdevice

/-- A fault after the fetch leaves the record of R132, and `pc` one past its address (R24). -/
theorem FaultedBy.explained {cause : FaultCause} {s t : State} (h : FaultedBy cause s t)
    (hmay : mayRaise cause s.params.strictUnusedBits (decode s.ir) = true) : FaultExplained t := by
  rw [faultExplained_iff]
  intro rec hrec
  obtain rfl : ⟨cause, s.ir, s.pc - 1⟩ = rec := RunState.faulted.inj (h.run.symm.trans hrec)
  refine .inr ⟨?_, h.ir, ?_⟩
  · rw [h.pc, BitVec.sub_add_cancel]
  · rwa [h.memory.params]

/-- Settles O43. A core that is not RUNNING keeps its record until a reset clears it, and a step of a RUNNING core
that faults leaves one that is explained. -/
theorem stepKeepsFaultRecordExplained : Obligations.StepKeepsFaultRecordExplained := by
  unfold Obligations.StepKeepsFaultRecordExplained
  intro s t hs hstep
  by_cases hr : s.run = .running
  · refine .of_faulted fun rec hf => ?_
    obtain ⟨s1, hfetch, rfl⟩ | ⟨w, s1, cause, hfetch, hmay, hfault⟩ := step_faulted hr hstep hf
    · exact faultExplained_raiseOnFetch hfetch
    · refine hfault.explained ?_
      rwa [State.params_fetched, params_fetch hfetch]
  · obtain ⟨image, -, rfl⟩ | ⟨-, rfl⟩ | ⟨-, -, rfl⟩ | ⟨-, hrunning, -⟩ | ⟨-, hrunning, -⟩ := step_cases hstep
    · exact trivial
    · rwa [takeStop_terminal (s := s.popControl) hr]
    · exact hs
    · exact absurd hrunning hr
    · exact absurd hrunning hr

/-- Settles O46. A step reaches HALTED by an instruction that halts, and that is a TRAP. -/
theorem onlyTrapHaltsTheRun : Obligations.OnlyTrapHaltsTheRun := by
  unfold Obligations.OnlyTrapHaltsTheRun
  intro s t hs hstep hhalt
  obtain ⟨image, -, rfl⟩ | ⟨-, rfl⟩ | ⟨-, -, rfl⟩ | ⟨-, -, s1, hfetch, rfl⟩ | ⟨-, -, w, s1, hfetch, hrun⟩ :=
    step_cases hstep
  · cases hhalt
  · rw [State.takeStop_eq, State.run_popControl] at hhalt
    split at hhalt
    · cases hhalt
    · exact absurd hhalt hs
  · exact absurd hhalt hs
  · cases hhalt
  · obtain ⟨-, hexec⟩ | ⟨-, rfl⟩ := hrun
    · obtain hsame | ⟨-, htrap, hsent⟩ | ⟨cause, -, hfault⟩ := exec_run hexec
      · obtain ⟨-, -, -, -, hfetched⟩ := fetched_fields hfetch
        exact absurd (hfetched.symm.trans (hsame.symm.trans hhalt)) hs
      · exact ⟨⟨w, s1, hfetch, htrap⟩, hsent⟩
      · cases hhalt.symm.trans hfault.run
    · cases hhalt

end Sys2Proof.Machine
end

section
/-! JSRR and TRAP (spec/42_control.md R103, spec/44_trap_and_unsupported.md R120 to R123). -/

namespace Sys2Proof.Machine

theorem exec_jsrr (h : BitVec 2) (base : Reg) (l : BitVec 6) (s : State) :
    exec (.jsrr h base l) s = .next (s.link.setPc (s.link.reg base)) := rfl

/-- Settles O9. The target is read from the registers after the link. -/
theorem jsrrLinksThenReadsBase : Obligations.JsrrLinksThenReadsBase := by
  unfold Obligations.JsrrLinksThenReadsBase
  intro h base l s
  refine ⟨decode_encode_jsrr h base l, _, exec_jsrr h base l s, ?_⟩
  rw [State.reg_link]
  exact jumpResult_link_setPc s _

/-- TRAP, once its request is answered (R120). -/
theorem exec_trap_of_answer (u : BitVec 4) {vect : BitVec 8} {s s1 : State} {x : TrapAnswer}
    (h : trapCall vect s = .answer x s1) : exec (.trap u vect) s = .next (applyTrapAnswer x s1) := by
  simp only [exec, execTrap, h]

/-- TRAP, where its request is never answered (U10). -/
theorem exec_trap_of_silent (u : BitVec 4) {vect : BitVec 8} {s : State} (h : trapCall vect s = .silent) :
    exec (.trap u vect) s = .fault (.trapPortSilent vect) := by
  simp only [exec, execTrap, h]

/-- A trap request answered after `n` times `Retry` (R120, R123). -/
theorem trapCall_of_retries (vect : BitVec 8) {s : State} {n : Nat} {x : TrapAnswer}
    {rest : List (PortResponse TrapAnswer)} (h : s.trapIn = List.replicate n .retry ++ .answer x :: rest) :
    trapCall vect s = .answer x { s with
      trapIn := rest, sent := List.replicate (n + 1) (.trap (s.trapRequest vect)) ++ s.sent } := by
  simp only [trapCall, h, portLoop_retries]

/-- A trap request whose list of responses holds no answer, where the free value is none either (log entry 5, U10). -/
theorem trapCall_unanswered {vect : BitVec 8} {s : State} {n : Nat} (hd : s.trapIn = List.replicate n .retry)
    (h : Config.trapPort (List.replicate (n + 1) (.trap (s.trapRequest vect)) ++ s.sent) = none) :
    trapCall vect s = .silent := by
  simp only [trapCall, hd, portLoop_only_retries, h]

/-- A trap request whose list of responses holds no answer, but for which the free value is one (log entry 5). -/
theorem trapCall_answered {vect : BitVec 8} {s : State} {n : Nat} {x : TrapAnswer}
    (hd : s.trapIn = List.replicate n .retry)
    (h : Config.trapPort (List.replicate (n + 1) (.trap (s.trapRequest vect)) ++ s.sent) = some x) :
    ∃ s1, trapCall vect s = .answer x s1 := by
  simp only [trapCall, hd, portLoop_only_retries, h]
  exact ⟨_, rfl⟩

/-- Settles O17. Every field but the registers, the flags and the run state is the request's doing alone. -/
theorem trapAppliesPortAnswer : Obligations.TrapAppliesPortAnswer := by
  unfold Obligations.TrapAppliesPortAnswer
  intro u vect s n x rest hresponses
  refine ⟨decode_encode_trap u vect, _, exec_trap_of_answer u (trapCall_of_retries vect hresponses), ?_⟩
  cases x with
  | cont | halt | error => exact ⟨rfl, rfl, rfl, rfl, rfl, rfl, rfl, rfl, rfl, rfl, rfl⟩

end Sys2Proof.Machine
end

section
/-! Which requests an instruction and a step send on the ports (spec/20_memory.md R45, R51,
spec/44_trap_and_unsupported.md R123). -/

namespace Sys2Proof.Machine

/-- From `s` to `t` only requests of the kind `p` were sent. -/
def Asks (p : PortRequest → Prop) (s t : State) : Prop :=
  ∃ new, t.sent = new ++ s.sent ∧ ∀ q ∈ new, p q

theorem Asks.of_eq {p : PortRequest → Prop} {s t : State} (h : t.sent = s.sent) : Asks p s t :=
  ⟨[], h, by simp⟩

theorem Asks.trans {p : PortRequest → Prop} {s t u : State} (h : Asks p s t) (h' : Asks p t u) : Asks p s u := by
  obtain ⟨new, hsent, hnew⟩ := h
  obtain ⟨new', hsent', hnew'⟩ := h'
  refine ⟨new' ++ new, by rw [hsent', hsent, List.append_assoc], fun q hq => ?_⟩
  exact (List.mem_append.mp hq).elim (hnew' q) (hnew q)

/-- The request `q` is one that the instruction `i` makes in the state `s` after its fetch. -/
def AskedBy (i : Instr) (s : State) : PortRequest → Prop
  | .devread a => readsData i = true ∧ s.params.deviceAddrs.contains a = true
  | .trap r => (∃ u, i = .trap u r.vect) ∧ r.regs = s.regs ∧ r.pc = s.pc ∧ r.cond = s.cond ∧ r.mem = s.mem

/-- The state that a read leaves, if it ends. -/
def ReadResult.stateAfter : ReadResult → Option State
  | .value _ t => some t
  | .error t => some t
  | .silent _ => none

/-- A read that ends, by a value or by a device error, has sent reads of its own address, and has sent any exactly
where that is a device address (R45). -/
theorem memRead_sent {a : Word} {s t : State} (h : (memRead a s).stateAfter = some t) :
    ∃ new, t.sent = new ++ s.sent ∧ (new ≠ [] ↔ s.params.deviceAddrs.contains a = true) ∧
      ∀ q ∈ new, q = .devread a := by
  cases ha : s.params.deviceAddrs.contains a with
  | false =>
    rw [memRead_ordinary ha] at h
    cases h
    exact ⟨[], rfl, by simp⟩
  | true =>
    have hdev : memRead a s = devRead a s := if_pos ha
    rw [hdev] at h
    have hsent : ∃ n, t.sent = List.replicate (n + 1) (.devread a) ++ s.sent := by
      obtain ⟨v', m, d, n, e, -⟩ | ⟨d, n, e⟩ | e := devRead_cases a s
      · rw [e] at h
        cases h
        exact ⟨n, rfl⟩
      · rw [e] at h
        cases h
        exact ⟨n, rfl⟩
      · rw [e] at h
        cases h
    obtain ⟨n, hn⟩ := hsent
    exact ⟨_, hn, by simp, fun q hq => List.eq_of_mem_replicate hq⟩

/-- A data read, from a state with the parameters of `s`, sends what its instruction may send. -/
theorem memRead_asks {i : Instr} {a : Word} {s t u : State} (hi : readsData i = true) (hp : t.params = s.params)
    (h : (memRead a t).stateAfter = some u) : Asks (AskedBy i s) t u := by
  obtain ⟨new, hsent, hdevice, hreads⟩ := memRead_sent h
  refine ⟨new, hsent, fun q hq => ?_⟩
  rw [hreads q hq]
  exact ⟨hi, hp ▸ hdevice.mp (List.ne_nil_of_mem hq)⟩

theorem Reads.asks {i : Instr} {s t : State} (h : Reads i s t) : Asks (AskedBy i s) s t := by
  induction h with
  | none => exact .of_eq rfl
  | one hi h hr ih => exact ih.trans (memRead_asks hi h.params (congrArg ReadResult.stateAfter hr))

@[simp] theorem sent_applyTrapAnswer (x : TrapAnswer) (s : State) : (applyTrapAnswer x s).sent = s.sent := by
  cases x <;> rfl

/-- An instruction sends its own requests only. -/
theorem exec_asks {i : Instr} {s t : State} (h : exec i s = .next t) : Asks (AskedBy i s) s t := by
  cases exec_effect h with
  | result hw hf hr => exact hr.asks
  | stay hp => exact .of_eq rfl
  | jump hp => exact .of_eq rfl
  | call hp hw => exact .of_eq rfl
  | store ht hr => exact hr.asks
  | deviceError hi hr he =>
    exact (hr.asks.trans (memRead_asks hi hr.params (congrArg ReadResult.stateAfter he))).trans (.of_eq rfl)
  | @trap unused vect x u hi hc =>
    obtain ⟨d, n, rfl⟩ := trapCall_answer hc
    refine ⟨_, sent_applyTrapAnswer _ _, fun q hq => ?_⟩
    rw [List.eq_of_mem_replicate hq]
    exact ⟨⟨unused, hi⟩, rfl, rfl, rfl, rfl⟩
  | badOpcode hi => exact .of_eq rfl

/-- Settles O51. Every read that an instruction makes, answered or not, is one of `AskedBy`. -/
theorem portsAreAskedOnlyByTheirInstructions : Obligations.PortsAreAskedOnlyByTheirInstructions := by
  unfold Obligations.PortsAreAskedOnlyByTheirInstructions
  intro i s t h
  obtain ⟨new, hsent, hnew⟩ := exec_asks h
  refine ⟨new, hsent, fun q hq => ?_⟩
  cases q with
  | devread a => exact hnew _ hq
  | trap r => exact hnew _ hq

/-- Settles O59. The fetch comes before the instruction, so what it sent stands below the instruction's requests. -/
theorem stepAsksPortsForFetchAndInstruction : Obligations.StepAsksPortsForFetchAndInstruction := by
  unfold Obligations.StepAsksPortsForFetchAndInstruction
  intro s t hstep
  obtain ⟨image, hc, rfl⟩ | ⟨hc, rfl⟩ | ⟨hc, hr, rfl⟩ | ⟨hc, hr, s1, hfetch, rfl⟩ | ⟨hc, hr, w, s1, hfetch, hrun⟩ :=
    step_cases hstep
  · exact ⟨fun _ => rfl, fun hidle => by cases hc.symm.trans hidle⟩
  · refine ⟨fun _ => ?_, fun hidle => by cases hc.symm.trans hidle⟩
    rw [State.takeStop_eq]
    rfl
  · exact ⟨fun _ => rfl, fun _ hrunning => absurd hrunning hr⟩
  · refine ⟨fun hnot => absurd ⟨hc, hr⟩ hnot, fun _ _ => ?_⟩
    obtain ⟨fetch, hsent, hdevice, hreads⟩ := memRead_sent (congrArg ReadResult.stateAfter hfetch)
    exact ⟨fetch, [], hsent, hdevice, hreads, by simp⟩
  · refine ⟨fun hnot => absurd ⟨hc, hr⟩ hnot, fun _ _ => ?_⟩
    obtain ⟨fetch, hsent, hdevice, hreads⟩ := memRead_sent (congrArg ReadResult.stateAfter hfetch)
    have hasks : Asks (AskedBy (decode w) (s1.fetched w)) (s1.fetched w) t := by
      obtain ⟨-, hexec⟩ | ⟨-, rfl⟩ := hrun
      · exact exec_asks hexec
      · exact .of_eq rfl
    obtain ⟨new, hsent', hnew⟩ := hasks
    refine ⟨fetch, new, ?_, hdevice, hreads, fun q hq => ⟨w, s1, hfetch, ?_⟩⟩
    · rw [hsent', State.sent_fetched, hsent, List.append_assoc]
      rfl
    · obtain ⟨m, d, sent, rfl⟩ := memRead_value_eq hfetch
      cases q with
      | devread a => exact hnew _ hq
      | trap r => exact hnew _ hq

end Sys2Proof.Machine
end

section
/-! Where an instruction and a step complete, and where a port that never answers stops them
(spec/93_implementation_defined.md U7, U10). -/

namespace Sys2Proof.Machine

open Sys2Proof.Claims

/-- A next state, or a stop for a read of one of `addrs` that the device port never answers. -/
def CompletesOrWaits (addrs : List Word) (o : StepOutcome) : Prop :=
  (∃ t, o = .next t) ∨ ∃ a, o = .fault (.devicePortSilent a) ∧ addrs.contains a = true

theorem withRead_of_silent {a b : Word} {s : State} (k : Word → State → StepOutcome)
    (h : memRead a s = .silent b) : withRead a s k = .fault (.devicePortSilent b) := by
  rw [withRead, h]

/-- A read completes or waits if what follows it does. -/
theorem withRead_completesOrWaits {a : Word} {s : State} {k : Word → State → StepOutcome}
    (hk : ∀ v s1, s1.params = s.params → CompletesOrWaits s.params.deviceAddrs (k v s1)) :
    CompletesOrWaits s.params.deviceAddrs (withRead a s k) := by
  cases hread : memRead a s with
  | value v s1 =>
    rw [withRead_of_value k hread]
    exact hk v s1 (params_memRead hread)
  | error s1 => exact .inl ⟨_, withRead_of_error k hread⟩
  | silent b =>
    obtain ⟨rfl, hdevice⟩ := memRead_silent hread
    exact .inr ⟨b, withRead_of_silent k hread, hdevice⟩

theorem loadFrom_completesOrWaits (dr : Reg) (ea : Word) (s : State) :
    CompletesOrWaits s.params.deviceAddrs (loadFrom dr ea s) :=
  withRead_completesOrWaits fun _ _ _ => .inl ⟨_, rfl⟩

/-- LD, LDR, LDI and STI complete or wait for the device port. -/
theorem exec_completesOrWaits {i : Instr} (hi : readsData i = true) (s : State) :
    CompletesOrWaits s.params.deviceAddrs (exec i s) := by
  cases i with
  | ld dr off9 => exact loadFrom_completesOrWaits dr _ s
  | ldr dr base off6 => exact loadFrom_completesOrWaits dr _ s
  | ldi dr off9 => exact withRead_completesOrWaits fun ea s1 hp => hp ▸ loadFrom_completesOrWaits dr ea s1
  | sti sr off9 => exact withRead_completesOrWaits fun _ _ _ => .inl ⟨_, rfl⟩
  | _ => cases hi

/-- Settles O52. An instruction that asks no port answers a next state by its definition. -/
theorem onlyASilentPortStopsAnInstruction : Obligations.OnlyASilentPortStopsAnInstruction := by
  unfold Obligations.OnlyASilentPortStopsAnInstruction
  intro i s
  cases hi : readsData i with
  | true =>
    obtain hnext | ⟨a, hfault, hdevice⟩ := exec_completesOrWaits hi s
    · exact .inl hnext
    · exact .inr (.inl ⟨a, hfault, rfl, hdevice⟩)
  | false =>
    cases i with
    | ld | ldr | ldi | sti => cases hi
    | trap u vect =>
      cases hcall : trapCall vect s with
      | answer x s1 => exact .inl ⟨_, exec_trap_of_answer u hcall⟩
      | silent => exact .inr (.inr ⟨u, vect, rfl, exec_trap_of_silent u hcall⟩)
    | _ => exact .inl ⟨_, rfl⟩

/-- Settles O57. Outside the fetch and the instruction nothing waits. -/
theorem onlyASilentPortStopsAStep : Obligations.OnlyASilentPortStopsAStep := by
  unfold Obligations.OnlyASilentPortStopsAStep
  intro s
  cases hc : s.control with
  | reset image => exact .inl ⟨_, step_reset hc⟩
  | stop => exact .inl ⟨_, step_stop hc⟩
  | idle =>
    by_cases hr : s.run = .running
    · cases hfetch : memRead s.pc s.popControl with
      | error s1 => exact .inl ⟨_, step_fetch_error hc hr hfetch⟩
      | silent b =>
        obtain ⟨rfl, hdevice⟩ := memRead_silent hfetch
        exact .inr ⟨rfl, hr, .inl ⟨step_fetch_silent hc hr hfetch, hdevice, hfetch⟩⟩
      | value w s1 =>
        have hstep := step_fetched hc hr hfetch
        cases hwf : (decode w).wf (s1.fetched w).params.strictUnusedBits with
        | false => exact .inl ⟨_, hstep.trans (dispatch_of_not_wf hwf)⟩
        | true =>
          have hexec := hstep.trans (dispatch_of_wf hwf)
          obtain ⟨t, ht⟩ | ⟨a, ha, hreads, hdevice⟩ | ⟨u, vect, hi, hv⟩ :=
            onlyASilentPortStopsAnInstruction (decode w) (s1.fetched w)
          · exact .inl ⟨t, hexec.trans ht⟩
          · rw [State.params_fetched, params_fetch hfetch] at hdevice
            exact .inr ⟨rfl, hr, .inr ⟨w, s1, hfetch, .inl ⟨a, hexec.trans ha, hreads, hdevice⟩⟩⟩
          · exact .inr ⟨rfl, hr, .inr ⟨w, s1, hfetch, .inr ⟨u, vect, hi, hexec.trans hv⟩⟩⟩
    · exact .inl ⟨_, step_idle_terminal hc hr⟩

/-! ## Requests past the end of a port's list (log entry 5) -/

section
variable {a : Word} {s : State} {n : Nat} (ha : s.params.deviceAddrs.contains a = true)
  (hd : s.devIn = List.replicate n .retry)
include ha hd

theorem memRead_unanswered (h : Config.devicePort (List.replicate (n + 1) (.devread a) ++ s.sent) s.mem = none) :
    memRead a s = .silent a := by
  rw [memRead_only_retries ha hd, h]

theorem memRead_answered {x : DeviceAnswer}
    (h : Config.devicePort (List.replicate (n + 1) (.devread a) ++ s.sent) s.mem = some x) (b : Word) :
    memRead a s ≠ .silent b := by
  rw [memRead_only_retries ha hd, h]
  cases x with
  | value v w => exact fun e => by cases e
  | error => exact fun e => by cases e

end

/-- The instructions of `firstRead` begin with that read. -/
theorem exec_of_firstRead {i : Instr} {s : State} {a : Word} (h : firstRead i s = some a) :
    ∃ k, exec i s = withRead a s k := by
  cases i with
  | ld | ldr | ldi | sti => cases h; exact ⟨_, rfl⟩
  | _ => cases h

/-- A load whose read ends completes. -/
theorem loadFrom_completes (dr : Reg) {ea : Word} {s : State} (h : ∀ b, memRead ea s ≠ .silent b) :
    ∃ t, loadFrom dr ea s = .next t := by
  cases hread : memRead ea s with
  | value v s1 => exact ⟨_, withRead_of_value _ hread⟩
  | error s1 => exact ⟨_, withRead_of_error _ hread⟩
  | silent b => exact absurd hread (h b)

/-- Settles O58, request by request: each case of the free value decides how the request ends. -/
theorem unansweredRequestsStopTheStep : Obligations.UnansweredRequestsStopTheStep := by
  unfold Obligations.UnansweredRequestsStopTheStep
  refine ⟨fun s n hc hr ha hd => ?_, fun i s n a hfirst ha hd => ?_, fun dr off9 s s1 ea n hpointer ha hd => ?_,
    fun u vect s n hd => ?_⟩
  · have hread := memRead_only_retries (s := s.popControl) ha hd
    rw [State.sent_popControl, State.mem_popControl] at hread
    cases hanswer : Config.devicePort (List.replicate (n + 1) (.devread s.pc) ++ s.sent) s.mem with
    | none =>
      rw [hanswer] at hread
      exact step_fetch_silent hc hr hread
    | some x =>
      rw [hanswer] at hread
      cases x with
      | value w ws => exact ⟨_, step_fetched hc hr hread, rfl, rfl⟩
      | error => exact ⟨_, step_fetch_error hc hr hread, rfl⟩
  · obtain ⟨k, hexec⟩ := exec_of_firstRead hfirst
    cases hanswer : Config.devicePort (List.replicate (n + 1) (.devread a) ++ s.sent) s.mem with
    | none => exact hexec.trans (withRead_of_silent k (memRead_unanswered ha hd hanswer))
    | some x => exact memRead_answered ha hd hanswer
  · have hexec : exec (.ldi dr off9) s = loadFrom dr ea s1 := (exec_ldi dr off9 s).trans (withRead_of_value _ hpointer)
    rw [← params_memRead hpointer] at ha
    cases hanswer : Config.devicePort (List.replicate (n + 1) (.devread ea) ++ s1.sent) s1.mem with
    | none => exact hexec.trans (withRead_of_silent _ (memRead_unanswered ha hd hanswer))
    | some x =>
      obtain ⟨t, ht⟩ := loadFrom_completes dr (memRead_answered ha hd hanswer)
      exact ⟨t, hexec.trans ht⟩
  · cases hanswer : Config.trapPort (List.replicate (n + 1) (.trap ⟨vect, s.regs, s.pc, s.cond, s.mem⟩) ++ s.sent) with
    | none => exact exec_trap_of_silent u (trapCall_unanswered hd hanswer)
    | some x =>
      obtain ⟨s1, hcall⟩ := trapCall_answered hd hanswer
      exact ⟨_, exec_trap_of_answer u hcall⟩

end Sys2Proof.Machine
end

section
/-! What no instruction can see: ir before its fetch, the run state and the fault record (spec/10_state.md R28, R30). -/

namespace Sys2Proof.Machine

/-- The state with the run state and `ir`, which no read looks at, replaced. -/
def State.withUnseen (s : State) (r : RunState) (x : Word) : State := { s with run := r, ir := x }

/-- The result of a read with the run state and `ir` of its state replaced. -/
def ReadResult.withUnseen (r : RunState) (x : Word) : ReadResult → ReadResult
  | .value v t => .value v (t.withUnseen r x)
  | .error t => .error (t.withUnseen r x)
  | .silent a => .silent a

/-- A read looks neither at the run state nor at `ir`, and keeps both. -/
theorem memRead_withUnseen (a : Word) (s : State) (r : RunState) (x : Word) :
    memRead a (s.withUnseen r x) = (memRead a s).withUnseen r x := by
  by_cases ha : s.params.deviceAddrs.contains a = true
  · simp only [memRead, devRead, State.withUnseen, ha, if_true]
    split <;> rfl
  · simp only [memRead, State.withUnseen, ha]
    rfl

/-- Settles O54. The fetch leaves the same state but for `ir`, which it then writes (R30). -/
theorem instructionRegisterCarriesNoMeaning : Obligations.InstructionRegisterCarriesNoMeaning := by
  unfold Obligations.InstructionRegisterCarriesNoMeaning
  intro s s1 w x hc hr hfetch
  have hfetch' : memRead s.pc (s.popControl.withUnseen s.run x) = .value w (s1.withUnseen s.run x) := by
    rw [memRead_withUnseen]
    exact congrArg (ReadResult.withUnseen s.run x) hfetch
  have hsame : (s1.withUnseen s.run x).fetched w = s1.fetched w := by
    obtain ⟨m, d, q, rfl⟩ := memRead_value_eq hfetch
    rfl
  rw [step_fetched hc hr hfetch, ← hsame]
  exact step_fetched (s := s.withUnseen s.run x) hc hr hfetch'

/-! ## The run state -/

/-- What follows a read answers alike in both states, if it does so after the read. -/
theorem withRead_withUnseen {a : Word} {s t : State} {k : Word → State → StepOutcome} {r : RunState} {x : Word}
    (hk : ∀ v s1, k v s1 = .next t → ∃ r' x', k v (s1.withUnseen r x) = .next (t.withUnseen r' x'))
    (h : withRead a s k = .next t) :
    ∃ r' x', withRead a (s.withUnseen r x) k = .next (t.withUnseen r' x') := by
  have hread := memRead_withUnseen a s r x
  obtain ⟨v, s1, hvalue, hnext⟩ | ⟨s1, herror, rfl⟩ := withRead_next h
  · rw [hvalue] at hread
    rw [withRead_of_value k hread]
    exact hk v s1 hnext
  · rw [herror] at hread
    exact ⟨_, _, withRead_of_error (s1 := s1.withUnseen r x) k hread⟩

theorem loadFrom_withUnseen {dr : Reg} {ea : Word} {s t : State} {r : RunState} {x : Word}
    (h : loadFrom dr ea s = .next t) :
    ∃ r' x', loadFrom dr ea (s.withUnseen r x) = .next (t.withUnseen r' x') := by
  refine withRead_withUnseen (fun v s1 hnext => ?_) h
  cases hnext
  exact ⟨_, _, rfl⟩

theorem trapCall_withUnseen {vect : BitVec 8} {s u : State} {y : TrapAnswer} (r : RunState) (x : Word)
    (h : trapCall vect s = .answer y u) : trapCall vect (s.withUnseen r x) = .answer y (u.withUnseen r x) := by
  unfold trapCall at h ⊢
  split at h
  · rename_i hloop
    cases h
    simp only [State.withUnseen, State.trapRequest] at hloop ⊢
    rw [hloop]
  · cases h

/-- An instruction that answers a next state answers one with another run state and `ir` too, and the two differ in
the run state and `ir` at most. -/
theorem exec_withUnseen {i : Instr} {s t : State} (r : RunState) (x : Word) (h : exec i s = .next t) :
    ∃ r' x', exec i (s.withUnseen r x) = .next (t.withUnseen r' x') := by
  cases i with
  | ld | ldr => exact loadFrom_withUnseen h
  | ldi dr off9 => exact withRead_withUnseen (fun ea s1 hload => loadFrom_withUnseen hload) h
  | sti sr off9 =>
    refine withRead_withUnseen (fun ea s1 hnext => ?_) h
    cases hnext
    exact ⟨_, _, rfl⟩
  | br nzp off9 =>
    rw [exec_br] at h ⊢
    cases h
    exact ⟨_, _, rfl⟩
  | trap u vect =>
    cases hcall : trapCall vect s with
    | answer y s1 =>
      rw [exec_trap_of_answer u hcall] at h
      cases h
      rw [exec_trap_of_answer u (trapCall_withUnseen r x hcall)]
      cases y with
      | cont regs c => exact ⟨_, _, rfl⟩
      | halt regs c => exact ⟨_, _, rfl⟩
      | error => exact ⟨_, _, rfl⟩
    | silent =>
      rw [exec_trap_of_silent u hcall] at h
      cases h
  | _ => cases h; exact ⟨_, _, rfl⟩

/-- Settles O55. The two runs of the instruction differ in the fields that none reads. -/
theorem noInstructionReadsTheRunState : Obligations.NoInstructionReadsTheRunState := by
  unfold Obligations.NoInstructionReadsTheRunState
  intro i s t r h
  obtain ⟨r', x', hexec⟩ := exec_withUnseen r s.ir h
  exact ⟨_, hexec, rfl, rfl, rfl, rfl, rfl⟩

end Sys2Proof.Machine
end
